-- ==== Sys2Proof/Config.lean ====
section
/-! DEFINITION. Config.lean: the parameters an implementation fixes when it is built (00_scope.md R5). -/

namespace Sys2Proof

/-- The three open parameters of R5. They are arguments of the model: a state is built from them
(`Machine.State.init`), no step changes them, and a statement about every state is a statement about
every value of them. -/
structure Params where
  /-- `NSLOT`: number of vector slots. -/
  nslot : Nat
  /-- `MAXBYTES`: storage capacity of one slot in bytes. -/
  maxBytes : Nat
  /-- `MAXBATCH`: greatest number of positions in one GETBATCH or SETBATCH. -/
  maxBatch : Nat
deriving DecidableEq, Repr

/-- The ranges R5 gives: `2 <= NSLOT <= 256`, `1 <= MAXBYTES <= 2^60 - 1`, `MAXBATCH <= 2^63 - 1`. -/
abbrev Params.Legal (p : Params) : Prop :=
  (2 ≤ p.nslot ∧ p.nslot ≤ 256) ∧ (1 ≤ p.maxBytes ∧ p.maxBytes ≤ 2 ^ 60 - 1) ∧
    p.maxBatch ≤ 2 ^ 63 - 1

/-- The parameters `Machine.State.reset` is built with. `MAXBATCH` is R5's default. `NSLOT` and
`MAXBYTES` are open in R5: DESIGN CHOICE, unsafe (log 1), the values 95_test_vectors.md section 0
uses. No statement rests on them. -/
def Params.atReset : Params := { nslot := 4, maxBytes := 4096, maxBatch := 2 ^ 63 - 1 }

end Sys2Proof
end

