-- ==== Sys2Proof/Word.lean ====
section
/-! DEFINITION. Word.lean: the widths of the block's words (00_scope.md R5, R11). -/

namespace Sys2Proof

/-- A byte: 8 bits (R11, R40). -/
abbrev Byte := BitVec 8

/-- A command word, `CWLEN = 32` bits (R5, R60). -/
abbrev Word32 := BitVec 32

/-- A scalar operand or result, `XLEN = 64` bits (R5, R26). -/
abbrev Word64 := BitVec 64

/-- A slot index as the `SA` and `SB` fields carry it: 8 bits (R60, R61). -/
abbrev SlotIndex := BitVec 8

end Sys2Proof
end

