-- ==== Sys2Proof/Machine/State.lean ====
section
/-! DEFINITION. Machine/State.lean: the slot file, the two ports, the reasons a step can stop, and reset
(10_state.md; 00_scope.md R10; 70_reset_and_hazards.md R155). -/

namespace Sys2Proof.Machine

/-- The seven errors of 60_exceptions.md R130. -/
inductive ErrorKind where
  /-- CREATE or RESIZE with a length below 0 or above `MAXBITS` (R131). -/
  | invalidSize
  /-- A position or range outside the vector (R132). -/
  | outOfRange
  /-- AND, OR, XOR of vectors of unequal length (R133). -/
  | sizeMismatch
  /-- A guarded command on a slot that is not live (R134). -/
  | disposed
  /-- A malformed image (R136). -/
  | format
  /-- The transaction does not decode to a command (R137). -/
  | illegalCommand
  /-- CREATE or DESERIALIZE into a live slot (R138). -/
  | slotBusy
deriving DecidableEq, Repr

/-- What a response reports: success or one error; exactly eight values (R130; codes 8 to 255 are
never produced). -/
inductive Status where
  /-- The command succeeded. -/
  | ok
  /-- The command raised this error and changed nothing (R135). -/
  | error (e : ErrorKind)
deriving DecidableEq, Repr

/-- One vector slot `V[s]` (10_state.md R20). `st` is the storage, byte 0 first (R23); bit `i` of the
vector is bit `i & 7` of byte `i >> 3` (20_memory.md R41). -/
structure Slot where
  /-- `LIVE` (R21). -/
  live : Bool
  /-- `LEN` in bits (R22). -/
  len : Nat
  /-- `ST` (R23). -/
  st : List Byte
deriving DecidableEq, Repr

/-- A slot that holds no vector: `LIVE = 0`, `LEN = 0`, `ST = []` (R22, R23, R32). -/
def Slot.empty : Slot := { live := false, len := 0, st := [] }

/-- The block's only memory: its slots (20_memory.md R40). -/
abbrev Memory := List Slot

/-- What the host presents at the command port in one transaction (00_scope.md R10, 10_state.md R26,
R29). Not retained by the block. -/
structure Command where
  /-- The command word `CW`. -/
  cw : Word32
  /-- The scalar operand `A0`. -/
  a0 : Word64
  /-- The scalar operand `A1`. -/
  a1 : Word64
  /-- The input byte stream `DIN`, complete, its end marked by the host (70_reset_and_hazards.md R158). -/
  din : List Byte
deriving DecidableEq, Repr

/-- What the block answers at the response port (00_scope.md R10, 10_state.md R26, R29). Not retained
by the block. -/
structure Response where
  /-- `STATUS`; its 8-bit word is `Status.code`. -/
  status : Status
  /-- The scalar result `RESULT`. -/
  result : Word64
  /-- The output byte stream `DOUT`. -/
  dout : List Byte
deriving DecidableEq, Repr

/-- One thing the host does to the block. -/
inductive HostInput where
  /-- Presents a command (00_scope.md R10). -/
  | command (c : Command)
  /-- Applies the reset input (70_reset_and_hazards.md R155). `abandoned` is the command in progress
  when reset is applied, if there was one: it is given up and gets no response. -/
  | reset (abandoned : Option Command)
deriving DecidableEq, Repr

/-- The machine: the slot file, the build-time parameters, and the host's side of the two ports.
`NSLOT` is the number of slots. -/
structure State where
  /-- The slot file `V[0] .. V[NSLOT-1]` (10_state.md R20). -/
  slots : Memory
  /-- The parameter `MAXBYTES` (00_scope.md R5). No step writes it. -/
  maxBytes : Nat
  /-- The parameter `MAXBATCH` (00_scope.md R5). No step writes it. -/
  maxBatch : Nat
  /-- The model's own field (log 3): what the host does from now on, oldest first. A command at the
  head is the one at the command port. -/
  inputs : List HostInput
  /-- The model's own field (log 3): the responses delivered so far, oldest first. Nothing reads it. -/
  responses : List Response
deriving DecidableEq, Repr

/-- `NSLOT` (R5, R20). -/
def State.nslot (s : State) : Nat := s.slots.length

/-- The build-time parameters of a state (R5). -/
def State.params (s : State) : Params :=
  { nslot := s.slots.length, maxBytes := s.maxBytes, maxBatch := s.maxBatch }

/-- `MAXBITS = 8 * MAXBYTES` (R5). -/
def State.maxBits (s : State) : Nat := 8 * s.maxBytes

/-- Why a step can stop with a fault. No error of the spec is here: those are responses (R135). -/
inductive Fault where
  /-- A byte of `V[s].ST` outside `0 <= k < |ST|` was to be read or written; `MemRead` and `MemWrite`
  are not defined there (00_scope.md R14). Raised by the commands that use bits or bytes of a slot
  whose storage is shorter than I-SIZE (10_state.md R23) says; no run reaches such a state. Safe
  (log 6). -/
  | storageIndex
  /-- A command's meaning was asked for with no transaction at the command port, so it has no operands.
  Raised by every meaning; `step` never asks so. Safe (log 7). -/
  | noCommand
deriving DecidableEq, Repr

/-- Why a step can be refused. -/
inductive Refusal where
  /-- An instruction that has no meaning in the model; no arm of `exec` answers it. Safe. -/
  | notModelled (mnemonic : String)
deriving DecidableEq, Repr

/-- The block right after reset, built with the given parameters (10_state.md R32): every slot not
live, with `LEN = 0` and `ST = []`; no transaction presented or answered. -/
def State.init (p : Params) : State :=
  { slots := List.replicate p.nslot Slot.empty
    maxBytes := p.maxBytes
    maxBatch := p.maxBatch
    inputs := []
    responses := [] }

/-- The machine right after reset (R32), with the parameters of `Params.atReset` (log 1). -/
def State.reset : State := State.init Params.atReset

end Sys2Proof.Machine
end

