-- ==== Sys2Proof/Machine/Operands.lean ====
section
/-! DEFINITION. Machine/Operands.lean: the helper functions of 00_scope.md R12 and R13, the scalar and stream
operands of a command (30_encoding.md R65, R66; 20_memory.md R48, R49), and the status codes (60_exceptions.md R130). -/

namespace Sys2Proof.Machine

/-! ## Lengths and masks (R13) -/

/-- `ceil8(n)`, the bytes that hold `n` bits. -/
def ceil8 (n : Nat) : Nat := (n + 7) / 8

/-- `tailmask(n)`: the bits of the last byte that lie below `n`. -/
def tailmask (n : Nat) : Byte := if n % 8 = 0 then 0xFF else BitVec.ofNat 8 (2 ^ (n % 8) - 1)

/-! ## Signed words (R12). Two's complement: log 10. -/

/-- `s64(w)`. -/
def s64 (w : Word64) : Int := if w.toNat < 2 ^ 63 then w.toNat else (w.toNat : Int) - 2 ^ 64

/-- `u64(x)`. -/
def u64 (x : Int) : Word64 := BitVec.ofInt 64 x

/-! ## Little-endian words (R13, 20_memory.md R42) -/

/-- `le64(x)`: 8 bytes, least significant first. -/
def le64 (x : Nat) : List Byte := (List.range 8).map fun k => BitVec.ofNat 8 (x >>> (8 * k))

/-- The sum over `k` of `b[k] << (8*k)`. -/
def unle : List Byte → Nat
  | [] => 0
  | b :: bs => b.toNat + 2 ^ 8 * unle bs

/-! ## Sequences of bools on the output stream (R13, 20_memory.md R49) -/

/-- The sum over `k` of `q[k] << k`. -/
def packNat : List Bool → Nat
  | [] => 0
  | b :: q => b.toNat + 2 * packNat q

/-- `pack(q)`: bool `j` in bit `j & 7` of byte `j >> 3`, unused high bits zero. -/
def pack (q : List Bool) : List Byte :=
  (List.range (ceil8 q.length)).map fun j => BitVec.ofNat 8 (packNat ((q.drop (8 * j)).take 8))

/-! ## Operands of a transaction -/

/-- The signed value of `A0` (R65). -/
def Command.x0 (c : Command) : Int := s64 c.a0

/-- The signed value of `A1` (R65). -/
def Command.x1 (c : Command) : Int := s64 c.a1

/-- The number of positions in `DIN` (R48). -/
def Command.batchSize (c : Command) : Nat := c.din.length / 8

/-- Position `j` of `DIN`: `s64(unle64(DIN[8*j .. 8*j+8)))` (R48). -/
def Command.position (c : Command) (j : Nat) : Int :=
  s64 (BitVec.ofNat 64 (unle ((c.din.drop (8 * j)).take 8)))

/-- The positions in `DIN`, in stream order (R48, R66). -/
def Command.positions (c : Command) : List Int := (List.range c.batchSize).map c.position

/-- `DIN` is empty, as a command that takes no stream requires (R48, R68 step 4). -/
abbrev Command.NoStream (c : Command) : Prop := c.din.length = 0

/-- `DIN` is a list of at most `maxBatch` whole positions (R48, R68 step 4). -/
abbrev Command.BatchStream (maxBatch : Nat) (c : Command) : Prop :=
  c.din.length % 8 = 0 ∧ c.batchSize ≤ maxBatch

/-! ## Operand checks: comparisons of mathematical integers (30_encoding.md R70 (a)) -/

/-- A position that names a bit: `0 <= p < LEN` (R132). -/
abbrev PosOk (len : Nat) (p : Int) : Prop := 0 ≤ p ∧ p < len

/-- A half-open range inside the vector: `0 <= lo <= hi <= LEN` (R132). -/
abbrev RangeOk (len : Nat) (lo hi : Int) : Prop := 0 ≤ lo ∧ lo ≤ hi ∧ hi ≤ len

/-- A length the block can hold: `0 <= n <= MAXBITS` (R131). -/
abbrev SizeOk (maxBits : Nat) (n : Int) : Prop := 0 ≤ n ∧ n ≤ maxBits

/-! ## Status codes (R130) -/

/-- The code of an error. -/
def ErrorKind.code : ErrorKind → Byte
  | .invalidSize => 1
  | .outOfRange => 2
  | .sizeMismatch => 3
  | .disposed => 4
  | .format => 5
  | .illegalCommand => 6
  | .slotBusy => 7

/-- The 8-bit `STATUS` word. -/
def Status.code : Status → Byte
  | .ok => 0
  | .error e => e.code

end Sys2Proof.Machine
end

