-- ==== Sys2Proof/Machine/Ops.lean ====
section
/-! DEFINITION. Machine/Ops.lean: storage of a slot (00_scope.md R14, 20_memory.md R41), the ports, the error response
(60_exceptions.md R135), and reset (70_reset_and_hazards.md R155). -/

namespace Sys2Proof.Machine

/-- The outcome of a step of this machine. -/
abbrev Result := Host.Outcome State Fault Refusal

/-! ## Bytes and bits of storage (R14, R41). `none` where R14 does not define the access. -/

/-- `MemRead((s,k), 1)`. -/
def memRead (st : List Byte) (k : Nat) : Option Byte := st[k]?

/-- `MemWrite((s,k), 1, b)`. -/
def memWrite (st : List Byte) (k : Nat) (b : Byte) : Option (List Byte) :=
  if k < st.length then some (st.set k b) else none

/-- `bit(s, i)`. -/
def readBit (st : List Byte) (i : Nat) : Option Bool :=
  (memRead st (i / 8)).map fun b => b.getLsbD (i % 8)

/-- A byte with one bit written: `b | (1 << j)` or `b & ~(1 << j)`. -/
def writeBitOfByte (b : Byte) (j : Nat) (val : Bool) : Byte :=
  if val then b ||| (1#8 <<< j) else b &&& ~~~(1#8 <<< j)

/-- `setbit(s, i, v)`. -/
def writeBit (val : Bool) (st : List Byte) (i : Nat) : Option (List Byte) :=
  (memRead st (i / 8)).bind fun b => memWrite st (i / 8) (writeBitOfByte b (i % 8) val)

/-- The bits at a list of positions, in order. -/
def readBits (st : List Byte) : List Nat → Option (List Bool)
  | [] => some []
  | i :: is => (readBit st i).bind fun b => (readBits st is).map (b :: ·)

/-- One value written at a list of positions, in order. -/
def writeBits (val : Bool) (st : List Byte) : List Nat → Option (List Byte)
  | [] => some st
  | i :: is => (writeBit val st i).bind fun st' => writeBits val st' is

/-- The positions `lo, lo+1, ..., hi-1`. -/
def rangePositions (lo hi : Nat) : List Nat := List.range' lo (hi - lo)

/-- The first position of a list whose bit is 1, reading no further (R94). -/
def firstSet (st : List Byte) : List Nat → Option (Option Nat)
  | [] => some none
  | i :: is => (readBit st i).bind fun b => if b then some (some i) else firstSet st is

/-- The bytes `0 .. m-1` replaced by a function of themselves (the loop of R109). -/
def mapBytes (f : Byte → Byte) : Nat → List Byte → Option (List Byte)
  | 0, st => some st
  | _ + 1, [] => none
  | m + 1, b :: st => (mapBytes f m st).map (f b :: ·)

/-- The bytes `0 .. m-1` combined with those of a second storage (the loop of R105). -/
def zipBytes (op : Byte → Byte → Byte) : Nat → List Byte → List Byte → Option (List Byte)
  | 0, st, _ => some st
  | m + 1, x :: st, y :: other => (zipBytes op m st other).map (op x y :: ·)
  | _ + 1, [], _ => none
  | _ + 1, _ :: _, [] => none

/-- The padding bits of the last byte cleared: `st[ceil8(n)-1] & tailmask(n)` when `n mod 8 != 0`
(R83, R105, R109, R117). -/
def maskTail (n : Nat) (st : List Byte) : List Byte :=
  if n % 8 = 0 then st else st.modify (ceil8 n - 1) (· &&& tailmask n)

/-- `m` zero bytes. -/
def zeros (m : Nat) : List Byte := List.replicate m 0

/-- Storage cut or zero-filled to `ceil8(n)` bytes, its padding cleared (R83). -/
def resizeBytes (n : Nat) (old : List Byte) : List Byte :=
  if ceil8 n ≥ old.length then maskTail n (old ++ zeros (ceil8 n - old.length))
  else maskTail n (old.take (ceil8 n))

/-- A vector of `n` bits, storage given. -/
def vector (n : Nat) (st : List Byte) : Slot := { live := true, len := n, st := st }

/-- The image of a vector: `le64(LEN) ++ ST` (43_serialization.md R115). -/
def image (v : Slot) : List Byte := le64 v.len ++ v.st

/-! ## The slot file -/

/-- `V[i]`, when `i < NSLOT` (R20). -/
def State.slot? (s : State) (i : SlotIndex) : Option Slot := s.slots[i.toNat]?

/-- The slot file with `V[i]` replaced; every other slot kept (20_memory.md R54). -/
def State.withSlot (s : State) (i : SlotIndex) (v : Slot) : State :=
  { s with slots := s.slots.set i.toNat v }

/-! ## The ports (00_scope.md R10) -/

/-- The transaction at the command port, if the host presents one. -/
def State.port? (s : State) : Option Command :=
  match s.inputs with
  | .command c :: _ => some c
  | .reset _ :: _ => none
  | [] => none

/-- The state after the transaction at the port is answered: the command is consumed, the response
delivered, neither retained (R26). -/
def State.answer (s : State) (r : Response) : State :=
  { s with inputs := s.inputs.tail, responses := s.responses ++ [r] }

/-- Taking an error: the one operation behind every `raise` (R14, R135). `STATUS` is the error's code,
`RESULT = 0`, `DOUT = []`, and the slot file is as before the command. Nothing is saved and no control
is transferred, so there is nothing to return from (R143). -/
def raise (e : ErrorKind) (s : State) : State :=
  s.answer { status := .error e, result := 0, dout := [] }

/-- `return (r, q)` (R14): `STATUS = OK`, `RESULT = u64(r)`, `DOUT = q`. -/
def ret (s : State) (r : Int) (q : List Byte) : State :=
  s.answer { status := .ok, result := u64 r, dout := q }

/-! ## The shapes a command's pseudocode is written in -/

/-- `if not p: raise e`. Inlined, so that a compiled model computes `k` only when `p` holds. -/
@[inline] def require (p : Prop) [Decidable p] (e : ErrorKind) (s : State) (k : Result) : Result :=
  if p then k else .next (raise e s)

/-- Use of a storage access, stopping where R14 does not define it (log 6). -/
def access {α : Type} (x : Option α) (k : α → Result) : Result :=
  match x with
  | some a => k a
  | none => .fault .storageIndex

/-- The transaction's operands (log 7 when there is no transaction). -/
def onCommand (s : State) (k : Command → Result) : Result :=
  match s.port? with
  | some c => k c
  | none => .fault .noCommand

/-- A named slot; `IllegalCommand` when it does not exist (R68 steps 2 and 3, R137). -/
def onSlot (s : State) (i : SlotIndex) (k : Slot → Result) : Result :=
  match s.slot? i with
  | some v => k v
  | none => .next (raise .illegalCommand s)

/-! ## Reset and the wait between commands -/

/-- The reset input (R155, R32): every slot not live and empty. The parameters are not state a reset
changes; the abandoned command, if any, gets no response. -/
def applyReset (s : State) : State :=
  { s with slots := s.slots.map fun _ => Slot.empty, inputs := s.inputs.tail }

/-- With nothing presented the block holds its state (60_exceptions.md R145). -/
def idle (s : State) : State := s

end Sys2Proof.Machine
end

