-- ==== Sys2Proof/Machine/Flags.lean ====
section
/-! DEFINITION. Machine/Flags.lean: the block's only flag, `V[s].LIVE` (10_state.md R28), and the guard on it
(44_lifecycle.md R125, R126). No command sets a condition code, so there is nothing else here. -/

namespace Sys2Proof.Machine

/-- The opening of every command on the vector in slot `sa`, for a stream use `din`: decoding steps 2
and 4 (R68), then the guard, the first check after decoding (R126, R139). -/
def guarded (din : Command → Prop) [∀ c, Decidable (din c)] (sa : SlotIndex) (s : State)
    (k : Command → Slot → Result) : Result :=
  onCommand s fun c =>
  onSlot s sa fun v =>
  require (din c) .illegalCommand s <|
  require (v.live = true) .disposed s <|
  k c v

/-- The opening of CREATE and DESERIALIZE: decoding, then the destination must not be live (R138, R139). -/
def vacant (din : Command → Prop) [∀ c, Decidable (din c)] (sa : SlotIndex) (s : State)
    (k : Command → Result) : Result :=
  onCommand s fun c =>
  onSlot s sa fun v =>
  require (din c) .illegalCommand s <|
  require (v.live = false) .slotBusy s <|
  k c

/-- The opening of AND, OR and XOR: decoding steps 2 to 4, then both slots must be live (R105, R126). -/
def guardedPair (sa sb : SlotIndex) (s : State) (k : Slot → Slot → Result) : Result :=
  onCommand s fun c =>
  onSlot s sa fun a =>
  onSlot s sb fun b =>
  require (c.din.length = 0) .illegalCommand s <|
  require (a.live = true ∧ b.live = true) .disposed s <|
  k a b

end Sys2Proof.Machine
end

