-- ==== Sys2Proof/Machine/Bitwise.lean ====
section
/-! DEFINITION. Machine/Bitwise.lean: AND, OR, XOR, NOT (42_bitwise_algebra.md R105 to R109). -/

namespace Sys2Proof.Machine

/-- The common contract of AND, OR and XOR (R105). `sb` may be `sa` (90_conflicts.md C10). -/
def bitwise (op : Byte → Byte → Byte) (sa sb : SlotIndex) (s : State) : Result :=
  guardedPair sa sb s fun a b =>
  require (a.len = b.len) .sizeMismatch s <|
  access (zipBytes op (ceil8 a.len) a.st b.st) fun st =>
  .next (ret (s.withSlot sa { a with st := maskTail a.len st }) 0 [])

/-- AND (R106). -/
def execAnd (sa sb : SlotIndex) (s : State) : Result := bitwise (· &&& ·) sa sb s

/-- OR (R107). -/
def execOr (sa sb : SlotIndex) (s : State) : Result := bitwise (· ||| ·) sa sb s

/-- XOR (R108). -/
def execXor (sa sb : SlotIndex) (s : State) : Result := bitwise (· ^^^ ·) sa sb s

/-- NOT (R109): the byte-wide flip, then the padding cleared. -/
def execNot (sa : SlotIndex) (s : State) : Result :=
  guarded Command.NoStream sa s fun _ v =>
  access (mapBytes (~~~ ·) (ceil8 v.len) v.st) fun st =>
  .next (ret (s.withSlot sa { v with st := maskTail v.len st }) 0 [])

end Sys2Proof.Machine
end

