-- ==== Sys2Proof/Machine/Codec.lean ====
section
/-! DEFINITION. Machine/Codec.lean: SERIALIZE and DESERIALIZE (43_serialization.md R115 to R118). -/

namespace Sys2Proof.Machine

/-- SERIALIZE (R116). -/
def execSerialize (sa : SlotIndex) (s : State) : Result :=
  guarded Command.NoStream sa s fun _ v =>
  .next (ret s (image v).length (image v))

/-- The length prefix of an image (R117): unsigned. -/
def imageLength (din : List Byte) : Nat := unle (din.take 8)

/-- DESERIALIZE (R117): the three format checks in order; set padding bits are cleared, not refused.
Its stream is not checked by decoding (R68 step 4). -/
def execDeserialize (sa : SlotIndex) (s : State) : Result :=
  vacant (fun _ => True) sa s fun c =>
  require (8 ≤ c.din.length) .format s <|
  require (imageLength c.din ≤ s.maxBits) .format s <|
  require (c.din.length - 8 = ceil8 (imageLength c.din)) .format s <|
  .next (ret (s.withSlot sa
    (vector (imageLength c.din) (maskTail (imageLength c.din) (c.din.drop 8)))) 0 [])

end Sys2Proof.Machine
end

