-- ==== Sys2Proof/Machine/Lifecycle.lean ====
section
/-! DEFINITION. Machine/Lifecycle.lean: RELEASE (44_lifecycle.md R127). -/

namespace Sys2Proof.Machine

/-- RELEASE (R127): idempotent; the one command that never fails on a legal transaction. -/
def execRelease (sa : SlotIndex) (s : State) : Result :=
  onCommand s fun c =>
  onSlot s sa fun _ =>
  require c.NoStream .illegalCommand s <|
  .next (ret (s.withSlot sa Slot.empty) 0 [])

end Sys2Proof.Machine
end

