-- ==== Sys2Proof/Machine/PackedStore.lean ====
section
/-! DEFINITION. Machine/PackedStore.lean: CREATE, GET, SET, RESIZE (40_packed_store.md R80 to R83). -/

namespace Sys2Proof.Machine

/-- CREATE (R80). -/
def execCreate (sa : SlotIndex) (s : State) : Result :=
  vacant Command.NoStream sa s fun c =>
  require (SizeOk s.maxBits c.x0) .invalidSize s <|
  .next (ret (s.withSlot sa (vector c.x0.toNat (zeros (ceil8 c.x0.toNat)))) 0 [])

/-- GET (R81). -/
def execGet (sa : SlotIndex) (s : State) : Result :=
  guarded Command.NoStream sa s fun c v =>
  require (PosOk v.len c.x0) .outOfRange s <|
  access (readBit v.st c.x0.toNat) fun b =>
  .next (ret s b.toNat [])

/-- SET (R82): the bit takes the value, it is not toggled (90_conflicts.md C3). -/
def execSet (sa : SlotIndex) (val : Bool) (s : State) : Result :=
  guarded Command.NoStream sa s fun c v =>
  require (PosOk v.len c.x0) .outOfRange s <|
  access (writeBit val v.st c.x0.toNat) fun st =>
  .next (ret (s.withSlot sa { v with st := st }) 0 [])

/-- RESIZE (R83): padding is cleared after a shrink (90_conflicts.md C2). -/
def execResize (sa : SlotIndex) (s : State) : Result :=
  guarded Command.NoStream sa s fun c v =>
  require (SizeOk s.maxBits c.x0) .invalidSize s <|
  .next (ret (s.withSlot sa { v with len := c.x0.toNat, st := resizeBytes c.x0.toNat v.st }) 0 [])

end Sys2Proof.Machine
end

