-- ==== Sys2Proof/Machine/RangeBatch.lean ====
section
/-! DEFINITION. Machine/RangeBatch.lean: GETBATCH, SETBATCH, GETRANGE, SETRANGE, FINDFIRST, COUNTBITS, COUNTBYTES,
LENGTH (41_range_batch.md R90 to R97). -/

namespace Sys2Proof.Machine

/-- GETBATCH (R90): all or nothing. -/
def execGetBatch (sa : SlotIndex) (s : State) : Result :=
  guarded (Command.BatchStream s.maxBatch) sa s fun c v =>
  require (∀ p ∈ c.positions, PosOk v.len p) .outOfRange s <|
  access (readBits v.st (c.positions.map Int.toNat)) fun q =>
  .next (ret s c.batchSize (pack q))

/-- SETBATCH (R91): every position is checked before any is written (90_conflicts.md C5). -/
def execSetBatch (sa : SlotIndex) (val : Bool) (s : State) : Result :=
  guarded (Command.BatchStream s.maxBatch) sa s fun c v =>
  require (∀ p ∈ c.positions, PosOk v.len p) .outOfRange s <|
  access (writeBits val v.st (c.positions.map Int.toNat)) fun st =>
  .next (ret (s.withSlot sa { v with st := st }) 0 [])

/-- GETRANGE (R93): half-open. -/
def execGetRange (sa : SlotIndex) (s : State) : Result :=
  guarded Command.NoStream sa s fun c v =>
  require (RangeOk v.len c.x0 c.x1) .outOfRange s <|
  access (readBits v.st (rangePositions c.x0.toNat c.x1.toNat)) fun q =>
  .next (ret s (c.x1 - c.x0) (pack q))

/-- SETRANGE (R92): half-open. -/
def execSetRange (sa : SlotIndex) (val : Bool) (s : State) : Result :=
  guarded Command.NoStream sa s fun c v =>
  require (RangeOk v.len c.x0 c.x1) .outOfRange s <|
  access (writeBits val v.st (rangePositions c.x0.toNat c.x1.toNat)) fun st =>
  .next (ret (s.withSlot sa { v with st := st }) 0 [])

/-- FINDFIRST (R94): the lowest set position, or the sentinel `-1`. -/
def execFindFirst (sa : SlotIndex) (s : State) : Result :=
  guarded Command.NoStream sa s fun _ v =>
  access (firstSet v.st (List.range v.len)) fun found =>
  .next (ret s (found.elim (-1) Int.ofNat) [])

/-- COUNTBITS (R95): the number of positions below `LEN` whose bit is 1. -/
def execCountBits (sa : SlotIndex) (s : State) : Result :=
  guarded Command.NoStream sa s fun _ v =>
  access (readBits v.st (List.range v.len)) fun q =>
  .next (ret s (q.count true) [])

/-- COUNTBYTES (R96). -/
def execCountBytes (sa : SlotIndex) (s : State) : Result :=
  guarded Command.NoStream sa s fun _ v =>
  .next (ret s (ceil8 v.len) [])

/-- LENGTH (R97). -/
def execLength (sa : SlotIndex) (s : State) : Result :=
  guarded Command.NoStream sa s fun _ v =>
  .next (ret s v.len [])

end Sys2Proof.Machine
end

