-- ==== Sys2Proof/Syntax.lean ====
section
/-! DEFINITION. Syntax.lean: the 19 commands of spec/opcode_table.json (30_encoding.md R67). -/

namespace Sys2Proof

/-- A command as its command word names it: one constructor per row of the opcode table. `sa` is the
receiver slot (R61), `sb` the operand slot of AND, OR, XOR (R61), `val` the bool to write (R62). The
scalar operands and the input stream are not in the word; they come with the transaction (R10). -/
inductive Instr where
  /-- CREATE, `OPC = 0x01` (R80). -/
  | create (sa : SlotIndex)
  /-- GET, `OPC = 0x02` (R81). -/
  | get (sa : SlotIndex)
  /-- SET, `OPC = 0x03` (R82). -/
  | set (sa : SlotIndex) (val : Bool)
  /-- RESIZE, `OPC = 0x04` (R83). -/
  | resize (sa : SlotIndex)
  /-- GETBATCH, `OPC = 0x05` (R90). -/
  | getBatch (sa : SlotIndex)
  /-- SETBATCH, `OPC = 0x06` (R91). -/
  | setBatch (sa : SlotIndex) (val : Bool)
  /-- GETRANGE, `OPC = 0x07` (R93). -/
  | getRange (sa : SlotIndex)
  /-- SETRANGE, `OPC = 0x08` (R92). -/
  | setRange (sa : SlotIndex) (val : Bool)
  /-- AND, `OPC = 0x09` (R106). -/
  | bitAnd (sa sb : SlotIndex)
  /-- OR, `OPC = 0x0A` (R107). -/
  | bitOr (sa sb : SlotIndex)
  /-- XOR, `OPC = 0x0B` (R108). -/
  | bitXor (sa sb : SlotIndex)
  /-- NOT, `OPC = 0x0C` (R109). -/
  | bitNot (sa : SlotIndex)
  /-- FINDFIRST, `OPC = 0x0D` (R94). -/
  | findFirst (sa : SlotIndex)
  /-- COUNTBITS, `OPC = 0x0E` (R95). -/
  | countBits (sa : SlotIndex)
  /-- COUNTBYTES, `OPC = 0x0F` (R96). -/
  | countBytes (sa : SlotIndex)
  /-- SERIALIZE, `OPC = 0x10` (R116). -/
  | serialize (sa : SlotIndex)
  /-- DESERIALIZE, `OPC = 0x11` (R117). -/
  | deserialize (sa : SlotIndex)
  /-- RELEASE, `OPC = 0x12` (R127). -/
  | release (sa : SlotIndex)
  /-- LENGTH, `OPC = 0x13` (R97). -/
  | length (sa : SlotIndex)
deriving DecidableEq, Repr

/-- The receiver slot `SA` of a command (R61). -/
def Instr.receiver : Instr → SlotIndex
  | .create sa => sa
  | .get sa => sa
  | .set sa _ => sa
  | .resize sa => sa
  | .getBatch sa => sa
  | .setBatch sa _ => sa
  | .getRange sa => sa
  | .setRange sa _ => sa
  | .bitAnd sa _ => sa
  | .bitOr sa _ => sa
  | .bitXor sa _ => sa
  | .bitNot sa => sa
  | .findFirst sa => sa
  | .countBits sa => sa
  | .countBytes sa => sa
  | .serialize sa => sa
  | .deserialize sa => sa
  | .release sa => sa
  | .length sa => sa

/-- The operand slot `SB` of a command, for the three commands that have one (R40, R61). -/
def Instr.operand? : Instr → Option SlotIndex
  | .bitAnd _ sb => some sb
  | .bitOr _ sb => some sb
  | .bitXor _ sb => some sb
  | .create _ => none
  | .get _ => none
  | .set _ _ => none
  | .resize _ => none
  | .getBatch _ => none
  | .setBatch _ _ => none
  | .getRange _ => none
  | .setRange _ _ => none
  | .bitNot _ => none
  | .findFirst _ => none
  | .countBits _ => none
  | .countBytes _ => none
  | .serialize _ => none
  | .deserialize _ => none
  | .release _ => none
  | .length _ => none

/-- The bool `VAL` of a command, for the three commands that write one (R62). -/
def Instr.value? : Instr → Option Bool
  | .set _ val => some val
  | .setBatch _ val => some val
  | .setRange _ val => some val
  | .create _ => none
  | .get _ => none
  | .resize _ => none
  | .getBatch _ => none
  | .getRange _ => none
  | .bitAnd _ _ => none
  | .bitOr _ _ => none
  | .bitXor _ _ => none
  | .bitNot _ => none
  | .findFirst _ => none
  | .countBits _ => none
  | .countBytes _ => none
  | .serialize _ => none
  | .deserialize _ => none
  | .release _ => none
  | .length _ => none

/-- How a command uses `DIN` (30_encoding.md R66, R68 step 4). -/
inductive StreamUse where
  /-- Takes no input stream: `|DIN| == 0`. -/
  | none
  /-- A list of 8-byte positions. -/
  | positions
  /-- An image; its length is checked by the command itself (R117). -/
  | image
deriving DecidableEq, Repr

/-- The stream use of each command (R66). -/
def Instr.stream : Instr → StreamUse
  | .getBatch _ => .positions
  | .setBatch _ _ => .positions
  | .deserialize _ => .image
  | .create _ => .none
  | .get _ => .none
  | .set _ _ => .none
  | .resize _ => .none
  | .getRange _ => .none
  | .setRange _ _ => .none
  | .bitAnd _ _ => .none
  | .bitOr _ _ => .none
  | .bitXor _ _ => .none
  | .bitNot _ => .none
  | .findFirst _ => .none
  | .countBits _ => .none
  | .countBytes _ => .none
  | .serialize _ => .none
  | .release _ => .none
  | .length _ => .none

end Sys2Proof
end

