-- ==== Sys2Proof/Machine/Dispatch.lean ====
section
/-! DEFINITION. Machine/Dispatch.lean: one arm per command. -/

namespace Sys2Proof.Machine

/-- The meaning of a decoded command in a state whose command port holds its transaction. -/
def exec (i : Instr) (s : State) : Host.Outcome State Fault Refusal :=
  match i with
  | .create sa => Sys2Proof.Machine.execCreate sa s
  | .get sa => Sys2Proof.Machine.execGet sa s
  | .set sa val => Sys2Proof.Machine.execSet sa val s
  | .resize sa => Sys2Proof.Machine.execResize sa s
  | .getBatch sa => Sys2Proof.Machine.execGetBatch sa s
  | .setBatch sa val => Sys2Proof.Machine.execSetBatch sa val s
  | .getRange sa => Sys2Proof.Machine.execGetRange sa s
  | .setRange sa val => Sys2Proof.Machine.execSetRange sa val s
  | .bitAnd sa sb => Sys2Proof.Machine.execAnd sa sb s
  | .bitOr sa sb => Sys2Proof.Machine.execOr sa sb s
  | .bitXor sa sb => Sys2Proof.Machine.execXor sa sb s
  | .bitNot sa => Sys2Proof.Machine.execNot sa s
  | .findFirst sa => Sys2Proof.Machine.execFindFirst sa s
  | .countBits sa => Sys2Proof.Machine.execCountBits sa s
  | .countBytes sa => Sys2Proof.Machine.execCountBytes sa s
  | .serialize sa => Sys2Proof.Machine.execSerialize sa s
  | .deserialize sa => Sys2Proof.Machine.execDeserialize sa s
  | .release sa => Sys2Proof.Machine.execRelease sa s
  | .length sa => Sys2Proof.Machine.execLength sa s

end Sys2Proof.Machine
end

