-- ==== Sys2Proof/Decode.lean ====
section
/-! DEFINITION. Decode.lean: the command word read and written (30_encoding.md R60 to R62, R67 to R69, R72). -/

namespace Sys2Proof

/-! ## The fields of the one format (R60) -/

/-- `CW[7:0]`. -/
def opcField (w : Word32) : Byte := w.extractLsb' 0 8

/-- `CW[15:8]`. -/
def saField (w : Word32) : SlotIndex := w.extractLsb' 8 8

/-- `CW[23:16]`. -/
def sbField (w : Word32) : SlotIndex := w.extractLsb' 16 8

/-- `CW[24]`. -/
def valField (w : Word32) : Bool := w.getLsbD 24

/-- `CW[31:25]`, reserved, must be zero. -/
def rsvField (w : Word32) : BitVec 7 := w.extractLsb' 25 7

/-- Why a word selects no command (R69). The block tells the host none of this: every reason is
answered `IllegalCommand` (log 11). -/
inductive DecodeError where
  /-- `OPC = 0x00` or `OPC` in `0x14 .. 0xFF`. -/
  | unknownOpcode
  /-- `RSV != 0`. -/
  | reservedBits
  /-- `SB != 0` in a command other than AND, OR, XOR. -/
  | unusedSB
  /-- `VAL = 1` in a command other than SET, SETBATCH, SETRANGE. -/
  | unusedVAL
deriving DecidableEq, Repr

/-- A row of format `CW32/SA`: mask `0xFFFF00FF` (R67). -/
def formatSA (mk : SlotIndex → Instr) (w : Word32) : Except DecodeError Instr :=
  if rsvField w ≠ 0 then .error .reservedBits
  else if sbField w ≠ 0 then .error .unusedSB
  else if valField w then .error .unusedVAL
  else .ok (mk (saField w))

/-- A row of format `CW32/SAV`: mask `0xFEFF00FF` (R67). -/
def formatSAV (mk : SlotIndex → Bool → Instr) (w : Word32) : Except DecodeError Instr :=
  if rsvField w ≠ 0 then .error .reservedBits
  else if sbField w ≠ 0 then .error .unusedSB
  else .ok (mk (saField w) (valField w))

/-- A row of format `CW32/SAB`: mask `0xFF0000FF` (R67). -/
def formatSAB (mk : SlotIndex → SlotIndex → Instr) (w : Word32) : Except DecodeError Instr :=
  if rsvField w ≠ 0 then .error .reservedBits
  else if valField w then .error .unusedVAL
  else .ok (mk (saField w) (sbField w))

/-- The decoder: step 1 of R68. Total on 32-bit words; a word that selects no command is refused by name. -/
def decode (w : Word32) : Except DecodeError Instr :=
  match (opcField w).toNat with
  | 0x01 => formatSA .create w
  | 0x02 => formatSA .get w
  | 0x03 => formatSAV .set w
  | 0x04 => formatSA .resize w
  | 0x05 => formatSA .getBatch w
  | 0x06 => formatSAV .setBatch w
  | 0x07 => formatSA .getRange w
  | 0x08 => formatSAV .setRange w
  | 0x09 => formatSAB .bitAnd w
  | 0x0A => formatSAB .bitOr w
  | 0x0B => formatSAB .bitXor w
  | 0x0C => formatSA .bitNot w
  | 0x0D => formatSA .findFirst w
  | 0x0E => formatSA .countBits w
  | 0x0F => formatSA .countBytes w
  | 0x10 => formatSA .serialize w
  | 0x11 => formatSA .deserialize w
  | 0x12 => formatSA .release w
  | 0x13 => formatSA .length w
  | _ => .error .unknownOpcode

/-! ## The encoder -/

/-- The operation code of each command (R67). -/
def Instr.opcode : Instr → Byte
  | .create _ => 0x01
  | .get _ => 0x02
  | .set _ _ => 0x03
  | .resize _ => 0x04
  | .getBatch _ => 0x05
  | .setBatch _ _ => 0x06
  | .getRange _ => 0x07
  | .setRange _ _ => 0x08
  | .bitAnd _ _ => 0x09
  | .bitOr _ _ => 0x0A
  | .bitXor _ _ => 0x0B
  | .bitNot _ => 0x0C
  | .findFirst _ => 0x0D
  | .countBits _ => 0x0E
  | .countBytes _ => 0x0F
  | .serialize _ => 0x10
  | .deserialize _ => 0x11
  | .release _ => 0x12
  | .length _ => 0x13

/-- The word with the given fields and `RSV = 0`: R60's pattern `0000000v bbbbbbbb aaaaaaaa oooooooo`. -/
def assemble (opc : Byte) (sa sb : SlotIndex) (val : Bool) : Word32 :=
  0#7 ++ BitVec.ofBool val ++ sb ++ sa ++ opc

/-- The command word of a command; every unused field is zero (R72). -/
def encode (i : Instr) : Word32 :=
  assemble i.opcode i.receiver (i.operand?.getD 0) (i.value?.getD false)

/-! ## The opcode map as R67 prints it -/

/-- One row of R67: a word `w` selects the row when `w & mask == match`. -/
structure OpcodeRow where
  mnemonic : String
  mask : Word32
  pattern : Word32
deriving DecidableEq, Repr

/-- The 19 rows of R67, in its order. -/
def opcodeRows : List OpcodeRow :=
  [ ⟨"CREATE", 0xFFFF00FF, 0x00000001⟩, ⟨"GET", 0xFFFF00FF, 0x00000002⟩,
    ⟨"SET", 0xFEFF00FF, 0x00000003⟩, ⟨"RESIZE", 0xFFFF00FF, 0x00000004⟩,
    ⟨"GETBATCH", 0xFFFF00FF, 0x00000005⟩, ⟨"SETBATCH", 0xFEFF00FF, 0x00000006⟩,
    ⟨"GETRANGE", 0xFFFF00FF, 0x00000007⟩, ⟨"SETRANGE", 0xFEFF00FF, 0x00000008⟩,
    ⟨"AND", 0xFF0000FF, 0x00000009⟩, ⟨"OR", 0xFF0000FF, 0x0000000A⟩,
    ⟨"XOR", 0xFF0000FF, 0x0000000B⟩, ⟨"NOT", 0xFFFF00FF, 0x0000000C⟩,
    ⟨"FINDFIRST", 0xFFFF00FF, 0x0000000D⟩, ⟨"COUNTBITS", 0xFFFF00FF, 0x0000000E⟩,
    ⟨"COUNTBYTES", 0xFFFF00FF, 0x0000000F⟩, ⟨"SERIALIZE", 0xFFFF00FF, 0x00000010⟩,
    ⟨"DESERIALIZE", 0xFFFF00FF, 0x00000011⟩, ⟨"RELEASE", 0xFFFF00FF, 0x00000012⟩,
    ⟨"LENGTH", 0xFFFF00FF, 0x00000013⟩ ]

/-- The mnemonic of each command (R67). -/
def Instr.mnemonic : Instr → String
  | .create _ => "CREATE"
  | .get _ => "GET"
  | .set _ _ => "SET"
  | .resize _ => "RESIZE"
  | .getBatch _ => "GETBATCH"
  | .setBatch _ _ => "SETBATCH"
  | .getRange _ => "GETRANGE"
  | .setRange _ _ => "SETRANGE"
  | .bitAnd _ _ => "AND"
  | .bitOr _ _ => "OR"
  | .bitXor _ _ => "XOR"
  | .bitNot _ => "NOT"
  | .findFirst _ => "FINDFIRST"
  | .countBits _ => "COUNTBITS"
  | .countBytes _ => "COUNTBYTES"
  | .serialize _ => "SERIALIZE"
  | .deserialize _ => "DESERIALIZE"
  | .release _ => "RELEASE"
  | .length _ => "LENGTH"

/-- A word selects a row (R67). -/
def OpcodeRow.selects (r : OpcodeRow) (w : Word32) : Bool := w &&& r.mask == r.pattern

/-- The instruction the decoder reads from a word given as the opcode table numbers its bits: one
32-bit command word presented whole (R60), the bits above `nbits` zero. -/
def decodeTableWord (nbits w : Nat) : Option Instr :=
  if w % 2 ^ nbits < 2 ^ 32 then (decode (BitVec.ofNat 32 (w % 2 ^ nbits))).toOption else none

end Sys2Proof
end

