-- ==== Sys2Proof/Machine/Port.lean ====
section
/-! DEFINITION. Machine/Port.lean: what the block finds at its inputs, and how a command word is put there
(00_scope.md R10; 30_encoding.md R68; 70_reset_and_hazards.md R155, R158). -/

namespace Sys2Proof.Machine

/-- What the next step has to do. -/
inductive Work where
  /-- Nothing is presented. -/
  | wait
  /-- The reset input is applied. -/
  | reset
  /-- A transaction whose word selects no command (R69). -/
  | reject (e : DecodeError)
  /-- A command to execute. -/
  | run (i : Instr)
deriving DecidableEq, Repr

/-- The word of the transaction at the head of the host's inputs, decoded (R68 step 1). -/
def nextWork (s : State) : Work :=
  match s.inputs with
  | [] => .wait
  | .reset _ :: _ => .reset
  | .command c :: _ =>
    match decode c.cw with
    | .error e => .reject e
    | .ok i => .run i

/-- A command word of `nbits` bits presented next, with `A0 = A1 = 0` and an empty `DIN` (log 8). -/
def presentWord (s : State) (nbits w : Nat) : State :=
  { s with inputs :=
      .command { cw := BitVec.ofNat 32 (w % 2 ^ nbits), a0 := 0, a1 := 0, din := [] } :: s.inputs }

end Sys2Proof.Machine
end

