-- ==== Sys2Proof/Machine/Step.lean ====
section
/-! DEFINITION. Machine/Step.lean: one step of the block: one transaction, one reset, or the wait for either. -/

namespace Sys2Proof.Machine

/-- One step (00_scope.md R10; 20_memory.md R50). A word that selects no command is answered
`IllegalCommand` (60_exceptions.md R137); it does not stop the block. -/
def step (s : State) : Host.Outcome State Fault Refusal :=
  match nextWork s with
  | .wait => .next (idle s)
  | .reset => .next (applyReset s)
  | .reject _ => .next (raise .illegalCommand s)
  | .run i => exec i s

/-- `s` with the command word `w` presented next, before anything else the host does (log 8). -/
def State.withFetchWord (s : State) (nbits w : Nat) : State := presentWord s nbits w

end Sys2Proof.Machine
end

