-- ==== Sys2Proof/WellFormed.lean ====
section
/-! DEFINITION. WellFormed.lean: which commands name slots that exist (30_encoding.md R68 steps 2 and 3). -/

namespace Sys2Proof

/-- `SA < NSLOT` (R68 step 2). -/
def Instr.receiverExists (p : Params) (i : Instr) : Bool := decide (i.receiver.toNat < p.nslot)

/-- `SB < NSLOT` for AND, OR and XOR (R68 step 3). -/
def Instr.operandExists (p : Params) (i : Instr) : Bool :=
  i.operand?.all fun sb => decide (sb.toNat < p.nslot)

/-- A command names only slots the block has. -/
def Instr.wellFormed (p : Params) (i : Instr) : Bool := i.receiverExists p && i.operandExists p

/-- The stream rule of R68 step 4 (20_memory.md R48), on `|DIN|` alone. -/
def StreamUse.accepts (p : Params) (n : Nat) : StreamUse → Bool
  | .none => n == 0
  | .positions => n % 8 == 0 && decide (n / 8 ≤ p.maxBatch)
  | .image => true

/-- Steps 2 to 4 of R68: a decoded command with an input stream of `n` bytes is legal. -/
def Instr.legal (p : Params) (n : Nat) (i : Instr) : Bool := i.wellFormed p && i.stream.accepts p n

end Sys2Proof
end

