-- ==== Sys2Proof/Safety.lean ====
section
/-! DEFINITION. Safety.lean: the invariants of the slot file, the abstract view of a vector, and the words the
statements are written in. -/

namespace Sys2Proof.Machine

/-! ## The invariants (10_state.md R20, R22 to R24) -/

/-- What R20 to R24 say of one slot. A live slot: `LEN <= MAXBITS`, I-SIZE, I-PAD. A slot that is not
live: `LEN = 0`, `ST = []`. -/
def Slot.wf (maxBytes : Nat) (v : Slot) : Bool :=
  if v.live then
    decide (v.len ≤ 8 * maxBytes) && v.st.length == ceil8 v.len &&
      (v.st.getD (ceil8 v.len - 1) 0 &&& ~~~ tailmask v.len) == 0
  else v == Slot.empty

/-- Every slot of the file is as R20 to R24 say. Equal vectors are then equal data (R31). -/
def Memory.wf (maxBytes : Nat) (m : Memory) : Bool := m.all (Slot.wf maxBytes)

/-- The invariant of the machine: legal parameters (00_scope.md R5) and a well-formed slot file. -/
abbrev State.Inv (s : State) : Prop := s.params.Legal ∧ Memory.wf s.maxBytes s.slots = true

/-! ## The abstract view of a vector (20_memory.md R41, 10_state.md R31) -/

/-- Bit `i` of a storage: bit `i & 7` of byte `i >> 3` (R41), padding included. -/
def storageBit (st : List Byte) (i : Nat) : Bool := (st.getD (i / 8) 0).getLsbD (i % 8)

/-- `bit(s, i)` (R41). -/
def Slot.bit (v : Slot) (i : Nat) : Bool := storageBit v.st i

/-- The sequence of bools `[bit(s,0), ..., bit(s,LEN-1)]` (R31). -/
def Slot.bits (v : Slot) : List Bool := (List.range v.len).map v.bit

/-! ## Transactions -/

/-- The transaction at the command port is `c`. -/
abbrev State.Presents (s : State) (c : Command) : Prop := s.inputs.head? = some (.command c)

/-- The slot file's entry `V[i]`. -/
abbrev State.Holds (s : State) (i : SlotIndex) (v : Slot) : Prop := s.slots[i.toNat]? = some v

/-- The response of a command that succeeds (30_encoding.md R71). -/
def okResponse (x : Word64) (q : List Byte) : Response := { status := .ok, result := x, dout := q }

/-- The response of a command that raises an error (60_exceptions.md R135). -/
def errorResponse (e : ErrorKind) : Response := { status := .error e, result := 0, dout := [] }

/-- The state that differs from `s` in exactly three ways: its slot file is `m`, the transaction at the
port is consumed, and `r` is the one new response. -/
def State.afterTransaction (s : State) (m : Memory) (r : Response) : State :=
  { slots := m, maxBytes := s.maxBytes, maxBatch := s.maxBatch
    inputs := s.inputs.tail, responses := s.responses ++ [r] }

/-- `exec` answers the transaction with success: the slot file becomes `m`, `RESULT = x`, `DOUT = q`, and
nothing else changes. -/
abbrev Answers (i : Instr) (s : State) (m : Memory) (x : Word64) (q : List Byte) : Prop :=
  exec i s = .next (s.afterTransaction m (okResponse x q))

/-- `exec` answers the transaction with the error `e`: no slot changes (60_exceptions.md R135). -/
abbrev Raises (i : Instr) (s : State) (e : ErrorKind) : Prop :=
  exec i s = .next (s.afterTransaction s.slots (errorResponse e))

/-- The response of the last transaction. -/
def State.lastResponse? (s : State) : Option Response := s.responses.getLast?

/-- The transaction is a legal command, in the terms of 30_encoding.md R68: its four conditions on the
bits of `CW` and on `|DIN|`. The decoder is not asked. -/
abbrev LegalTransaction (p : Params) (c : Command) : Prop :=
  (∃ r ∈ opcodeRows, c.cw &&& r.mask = r.pattern) ∧
  c.cw.toNat / 2 ^ 8 % 2 ^ 8 < p.nslot ∧
  (c.cw.toNat % 2 ^ 8 ∈ [0x09, 0x0A, 0x0B] → c.cw.toNat / 2 ^ 16 % 2 ^ 8 < p.nslot) ∧
  (if c.cw.toNat % 2 ^ 8 ∈ [0x05, 0x06] then
      c.din.length % 8 = 0 ∧ c.din.length / 8 ≤ p.maxBatch
    else if c.cw.toNat % 2 ^ 8 = 0x11 then True
    else c.din.length = 0)

end Sys2Proof.Machine

namespace Sys2Proof

open Machine (ErrorKind)

/-! ## Families of commands -/

/-- The errors a command can raise besides `IllegalCommand`: the table of 60_exceptions.md R147. -/
def Instr.errors : Instr → List ErrorKind
  | .create _ => [.invalidSize, .slotBusy]
  | .get _ => [.outOfRange, .disposed]
  | .set _ _ => [.outOfRange, .disposed]
  | .resize _ => [.invalidSize, .disposed]
  | .getBatch _ => [.outOfRange, .disposed]
  | .setBatch _ _ => [.outOfRange, .disposed]
  | .getRange _ => [.outOfRange, .disposed]
  | .setRange _ _ => [.outOfRange, .disposed]
  | .bitAnd _ _ => [.sizeMismatch, .disposed]
  | .bitOr _ _ => [.sizeMismatch, .disposed]
  | .bitXor _ _ => [.sizeMismatch, .disposed]
  | .bitNot _ => [.disposed]
  | .findFirst _ => [.disposed]
  | .countBits _ => [.disposed]
  | .countBytes _ => [.disposed]
  | .length _ => [.disposed]
  | .serialize _ => [.disposed]
  | .deserialize _ => [.format, .slotBusy]
  | .release _ => []

/-- The guarded commands (44_lifecycle.md R126): all but CREATE, DESERIALIZE and RELEASE. -/
def Instr.isGuarded (i : Instr) : Bool := ErrorKind.disposed ∈ Instr.errors i

/-- The commands that only read (20_memory.md R46). -/
def Instr.isRead : Instr → Bool
  | .get _ => true
  | .getBatch _ => true
  | .getRange _ => true
  | .findFirst _ => true
  | .countBits _ => true
  | .countBytes _ => true
  | .length _ => true
  | .serialize _ => true
  | .create _ => false
  | .set _ _ => false
  | .resize _ => false
  | .setBatch _ _ => false
  | .setRange _ _ => false
  | .bitAnd _ _ => false
  | .bitOr _ _ => false
  | .bitXor _ _ => false
  | .bitNot _ => false
  | .deserialize _ => false
  | .release _ => false


/-- The commands that read `A0` (30_encoding.md R65). -/
def Instr.readsA0 : Instr → Bool
  | .create _ => true
  | .resize _ => true
  | .get _ => true
  | .set _ _ => true
  | .getRange _ => true
  | .setRange _ _ => true
  | .getBatch _ => false
  | .setBatch _ _ => false
  | .bitAnd _ _ => false
  | .bitOr _ _ => false
  | .bitXor _ _ => false
  | .bitNot _ => false
  | .findFirst _ => false
  | .countBits _ => false
  | .countBytes _ => false
  | .serialize _ => false
  | .deserialize _ => false
  | .release _ => false
  | .length _ => false

/-- The commands that read `A1` (30_encoding.md R65). -/
def Instr.readsA1 : Instr → Bool
  | .getRange _ => true
  | .setRange _ _ => true
  | .create _ => false
  | .resize _ => false
  | .get _ => false
  | .set _ _ => false
  | .getBatch _ => false
  | .setBatch _ _ => false
  | .bitAnd _ _ => false
  | .bitOr _ _ => false
  | .bitXor _ _ => false
  | .bitNot _ => false
  | .findFirst _ => false
  | .countBits _ => false
  | .countBytes _ => false
  | .serialize _ => false
  | .deserialize _ => false
  | .release _ => false
  | .length _ => false

end Sys2Proof
end

