-- ==== Sys2Proof/Certificates/Slice0/Obligations.lean ====
section
/-! DEFINITION. Certificates/Slice0/Obligations.lean: what is claimed of the model. `Answers`, `Raises`, `Presents`,
`Holds`, `Inv`, `Slot.bit` and `storageBit` are those of Safety.lean. -/

open Sys2Proof Sys2Proof.Machine

/-! ## Packed Store (40_packed_store.md) -/

/-- R80. CREATE makes the slot live with `ceil8(length)` zero bytes, or raises `SlotBusy`, or, on a slot
that is not live, `InvalidSizeError`. -/
def Obligations.CreateMakesZeroVector : Prop :=
  ∀ (s : State) (c : Command) (sa : SlotIndex) (v : Slot),
    s.Presents c → s.Holds sa v → c.din = [] →
    (v.live = true → Raises (.create sa) s .slotBusy) ∧
    (v.live = false → (s64 c.a0 < 0 ∨ s64 c.a0 > 8 * s.maxBytes) →
      Raises (.create sa) s .invalidSize) ∧
    (v.live = false → 0 ≤ s64 c.a0 → s64 c.a0 ≤ 8 * s.maxBytes →
      Answers (.create sa) s
        (s.slots.set sa.toNat
          { live := true, len := (s64 c.a0).toNat,
            st := List.replicate (((s64 c.a0).toNat + 7) / 8) 0 }) 0 [])

/-- R81. GET returns the bit at a position in `[0, LEN)` and changes nothing. -/
def Obligations.GetReturnsTheBit : Prop :=
  ∀ (s : State) (c : Command) (sa : SlotIndex) (v : Slot),
    s.Inv → s.Presents c → s.Holds sa v → c.din = [] →
    (v.live = false → Raises (.get sa) s .disposed) ∧
    (v.live = true → (s64 c.a0 < 0 ∨ s64 c.a0 ≥ v.len) → Raises (.get sa) s .outOfRange) ∧
    (v.live = true → 0 ≤ s64 c.a0 → s64 c.a0 < v.len →
      Answers (.get sa) s s.slots (if v.bit (s64 c.a0).toNat then 1 else 0) [])

/-- R82. SET gives one bit the value `VAL`; every other bit of the storage, padding included, `LEN` and
every other slot are unchanged. -/
def Obligations.SetWritesExactlyOneBit : Prop :=
  ∀ (s : State) (c : Command) (sa : SlotIndex) (val : Bool) (v : Slot),
    s.Inv → s.Presents c → s.Holds sa v → c.din = [] →
    (v.live = false → Raises (.set sa val) s .disposed) ∧
    (v.live = true → (s64 c.a0 < 0 ∨ s64 c.a0 ≥ v.len) → Raises (.set sa val) s .outOfRange) ∧
    (v.live = true → 0 ≤ s64 c.a0 → s64 c.a0 < v.len →
      ∃ st, Answers (.set sa val) s (s.slots.set sa.toNat { v with st := st }) 0 [] ∧
        st.length = v.st.length ∧
        ∀ i, storageBit st i = if i = (s64 c.a0).toNat then val else storageBit v.st i)

/-- R83. RESIZE: the new storage has `ceil8(length)` bytes, the bits below both lengths are kept, and
every other bit of it is zero. -/
def Obligations.ResizeKeepsPrefixAndZeroesTheRest : Prop :=
  ∀ (s : State) (c : Command) (sa : SlotIndex) (v : Slot),
    s.Inv → s.Presents c → s.Holds sa v → c.din = [] →
    (v.live = false → Raises (.resize sa) s .disposed) ∧
    (v.live = true → (s64 c.a0 < 0 ∨ s64 c.a0 > 8 * s.maxBytes) →
      Raises (.resize sa) s .invalidSize) ∧
    (v.live = true → 0 ≤ s64 c.a0 → s64 c.a0 ≤ 8 * s.maxBytes →
      ∃ st, Answers (.resize sa) s
          (s.slots.set sa.toNat { live := true, len := (s64 c.a0).toNat, st := st }) 0 [] ∧
        st.length = ((s64 c.a0).toNat + 7) / 8 ∧
        ∀ i, storageBit st i =
          (decide (i < (s64 c.a0).toNat) && decide (i < v.len) && storageBit v.st i))

/-! ## Range and Batch (41_range_batch.md) -/

/-- R90. GETBATCH returns the bits at all positions of `DIN`, packed, or nothing. -/
def Obligations.GetBatchReturnsTheBits : Prop :=
  ∀ (s : State) (c : Command) (sa : SlotIndex) (v : Slot),
    s.Inv → s.Presents c → s.Holds sa v → c.din.length % 8 = 0 →
    c.din.length / 8 ≤ s.maxBatch →
    (v.live = false → Raises (.getBatch sa) s .disposed) ∧
    (v.live = true → (∃ p ∈ c.positions, p < 0 ∨ p ≥ v.len) →
      Raises (.getBatch sa) s .outOfRange) ∧
    (v.live = true → (∀ p ∈ c.positions, 0 ≤ p ∧ p < v.len) →
      ∃ x q, x.toNat = c.din.length / 8 ∧ q.length = (c.din.length / 8 + 7) / 8 ∧
        (∀ j, storageBit q j = ((c.positions.map fun p => v.bit p.toNat).getD j false)) ∧
        Answers (.getBatch sa) s s.slots x q)

/-- R91. SETBATCH gives every named bit the value `VAL`, or writes nothing at all. -/
def Obligations.SetBatchWritesAllOrNothing : Prop :=
  ∀ (s : State) (c : Command) (sa : SlotIndex) (val : Bool) (v : Slot),
    s.Inv → s.Presents c → s.Holds sa v → c.din.length % 8 = 0 →
    c.din.length / 8 ≤ s.maxBatch →
    (v.live = false → Raises (.setBatch sa val) s .disposed) ∧
    (v.live = true → (∃ p ∈ c.positions, p < 0 ∨ p ≥ v.len) →
      Raises (.setBatch sa val) s .outOfRange) ∧
    (v.live = true → (∀ p ∈ c.positions, 0 ≤ p ∧ p < v.len) →
      ∃ st, Answers (.setBatch sa val) s (s.slots.set sa.toNat { v with st := st }) 0 [] ∧
        st.length = v.st.length ∧
        ∀ i, storageBit st i = if (i : Int) ∈ c.positions then val else storageBit v.st i)

/-- R92. SETRANGE gives every bit of `[min, max)` the value `VAL` and keeps every other bit. -/
def Obligations.SetRangeWritesExactlyTheRange : Prop :=
  ∀ (s : State) (c : Command) (sa : SlotIndex) (val : Bool) (v : Slot),
    s.Inv → s.Presents c → s.Holds sa v → c.din = [] →
    (v.live = false → Raises (.setRange sa val) s .disposed) ∧
    (v.live = true → ¬ (0 ≤ s64 c.a0 ∧ s64 c.a0 ≤ s64 c.a1 ∧ s64 c.a1 ≤ v.len) →
      Raises (.setRange sa val) s .outOfRange) ∧
    (v.live = true → 0 ≤ s64 c.a0 → s64 c.a0 ≤ s64 c.a1 → s64 c.a1 ≤ v.len →
      ∃ st, Answers (.setRange sa val) s (s.slots.set sa.toNat { v with st := st }) 0 [] ∧
        st.length = v.st.length ∧
        ∀ i : Nat, storageBit st i =
          if s64 c.a0 ≤ i ∧ i < s64 c.a1 then val else storageBit v.st i)

/-- R93. GETRANGE returns the bits of `[min, max)`, shifted down to bit 0 and packed. -/
def Obligations.GetRangeReturnsTheRange : Prop :=
  ∀ (s : State) (c : Command) (sa : SlotIndex) (v : Slot),
    s.Inv → s.Presents c → s.Holds sa v → c.din = [] →
    (v.live = false → Raises (.getRange sa) s .disposed) ∧
    (v.live = true → ¬ (0 ≤ s64 c.a0 ∧ s64 c.a0 ≤ s64 c.a1 ∧ s64 c.a1 ≤ v.len) →
      Raises (.getRange sa) s .outOfRange) ∧
    (v.live = true → 0 ≤ s64 c.a0 → s64 c.a0 ≤ s64 c.a1 → s64 c.a1 ≤ v.len →
      ∃ x q, (x.toNat : Int) = s64 c.a1 - s64 c.a0 ∧ q.length = (x.toNat + 7) / 8 ∧
        (∀ j, storageBit q j = (decide (j < x.toNat) && v.bit ((s64 c.a0).toNat + j))) ∧
        Answers (.getRange sa) s s.slots x q)

/-- R94. FINDFIRST returns the lowest set position, or `0xFFFFFFFFFFFFFFFF` when there is none. -/
def Obligations.FindFirstReturnsTheLowestSetBit : Prop :=
  ∀ (s : State) (c : Command) (sa : SlotIndex) (v : Slot),
    s.Inv → s.Presents c → s.Holds sa v → c.din = [] →
    (v.live = false → Raises (.findFirst sa) s .disposed) ∧
    (v.live = true → ∀ k < v.len, v.bit k = true → (∀ j < k, v.bit j = false) →
      ∃ x, x.toNat = k ∧ Answers (.findFirst sa) s s.slots x []) ∧
    (v.live = true → (∀ k < v.len, v.bit k = false) →
      Answers (.findFirst sa) s s.slots 0xFFFFFFFFFFFFFFFF [])

/-- R95. COUNTBITS returns the number of set positions below `LEN`, which is at most `LEN`. -/
def Obligations.CountBitsReturnsThePopulation : Prop :=
  ∀ (s : State) (c : Command) (sa : SlotIndex) (v : Slot),
    s.Inv → s.Presents c → s.Holds sa v → c.din = [] →
    (v.live = false → Raises (.countBits sa) s .disposed) ∧
    (v.live = true →
      ∃ x, x.toNat = ((Finset.range v.len).filter fun i => v.bit i = true).card ∧
        x.toNat ≤ v.len ∧ Answers (.countBits sa) s s.slots x [])

/-- R96. COUNTBYTES returns `ceil8(LEN)`, which is `|ST|`. -/
def Obligations.CountBytesReturnsTheStorageSize : Prop :=
  ∀ (s : State) (c : Command) (sa : SlotIndex) (v : Slot),
    s.Inv → s.Presents c → s.Holds sa v → c.din = [] →
    (v.live = false → Raises (.countBytes sa) s .disposed) ∧
    (v.live = true →
      ∃ x, x.toNat = (v.len + 7) / 8 ∧ x.toNat = v.st.length ∧
        Answers (.countBytes sa) s s.slots x [])

/-- R97. LENGTH returns `LEN`. -/
def Obligations.LengthReturnsTheBitCount : Prop :=
  ∀ (s : State) (c : Command) (sa : SlotIndex) (v : Slot),
    s.Inv → s.Presents c → s.Holds sa v → c.din = [] →
    (v.live = false → Raises (.length sa) s .disposed) ∧
    (v.live = true → ∃ x, x.toNat = v.len ∧ Answers (.length sa) s s.slots x [])

/-! ## Bitwise Algebra (42_bitwise_algebra.md) -/

/-- R105 to R108. AND, OR and XOR combine the two vectors position by position into the receiver, keep
`LEN` and every other slot, and leave the padding zero; `sb` may be `sa`. -/
def Obligations.BinaryAlgebraIsPositionwise : Prop :=
  ∀ (s : State) (c : Command) (sa sb : SlotIndex) (a b : Slot) (i : Instr)
    (f : Bool → Bool → Bool),
    (i, f) ∈ [(Instr.bitAnd sa sb, and), (Instr.bitOr sa sb, or), (Instr.bitXor sa sb, xor)] →
    s.Inv → s.Presents c → s.Holds sa a → s.Holds sb b → c.din = [] →
    ((a.live = false ∨ b.live = false) → Raises i s .disposed) ∧
    (a.live = true → b.live = true → a.len ≠ b.len → Raises i s .sizeMismatch) ∧
    (a.live = true → b.live = true → a.len = b.len →
      ∃ st, Answers i s (s.slots.set sa.toNat { a with st := st }) 0 [] ∧
        st.length = a.st.length ∧
        ∀ k, storageBit st k = (decide (k < a.len) && f (a.bit k) (b.bit k)))

/-- R109. NOT inverts every bit below `LEN` and leaves the padding zero. -/
def Obligations.NotInvertsEveryBit : Prop :=
  ∀ (s : State) (c : Command) (sa : SlotIndex) (v : Slot),
    s.Inv → s.Presents c → s.Holds sa v → c.din = [] →
    (v.live = false → Raises (.bitNot sa) s .disposed) ∧
    (v.live = true →
      ∃ st, Answers (.bitNot sa) s (s.slots.set sa.toNat { v with st := st }) 0 [] ∧
        st.length = v.st.length ∧
        ∀ k, storageBit st k = (decide (k < v.len) && !v.bit k))

/-- AND, OR and XOR commute: the receiver after `OP vA, vB` is what `vB` would be after `OP vB, vA`. -/
def Obligations.BinaryAlgebraCommutes : Prop :=
  ∀ (s t u : State) (c : Command) (sa sb : SlotIndex) (i j : Instr),
    (i, j) ∈ [(Instr.bitAnd sa sb, Instr.bitAnd sb sa), (Instr.bitOr sa sb, Instr.bitOr sb sa),
      (Instr.bitXor sa sb, Instr.bitXor sb sa)] →
    s.Inv → s.Presents c → exec i s = .next t → exec j s = .next u →
    t.lastResponse? = u.lastResponse? ∧
      (t.lastResponse? = some (okResponse 0 []) →
        t.slots[sa.toNat]? = u.slots[sb.toNat]?)

/-- NOT twice, or `XOR vA, vB` twice with two slots: the second run succeeds too and restores the slot
file. -/
def Obligations.InvolutionsRestoreTheReceiver : Prop :=
  ∀ (s t : State) (d : Command) (sa sb : SlotIndex) (i : Instr),
    (i = .bitNot sa ∨ (i = .bitXor sa sb ∧ sa ≠ sb)) →
    s.Inv → exec i s = .next t → t.lastResponse? = some (okResponse 0 []) →
    t.Presents d → d.din = [] →
    ∃ u, exec i t = .next u ∧ u.lastResponse? = some (okResponse 0 []) ∧ u.slots = s.slots

/-! ## Serialization (43_serialization.md) -/

/-- R115, R116. SERIALIZE emits `le64(LEN) ++ ST`, byte by byte, and its length. -/
def Obligations.SerializeEmitsTheImage : Prop :=
  ∀ (s : State) (c : Command) (sa : SlotIndex) (v : Slot),
    s.Inv → s.Presents c → s.Holds sa v → c.din = [] →
    (v.live = false → Raises (.serialize sa) s .disposed) ∧
    (v.live = true →
      ∃ x q, x.toNat = 8 + (v.len + 7) / 8 ∧ q.length = x.toNat ∧
        (∀ k < 8, q[k]? = some (BitVec.ofNat 8 (v.len / 2 ^ (8 * k)))) ∧
        (∀ j, q[8 + j]? = v.st[j]?) ∧
        (∀ i, v.len ≤ i → storageBit v.st i = false) ∧
        Answers (.serialize sa) s s.slots x q)

/-- R117. DESERIALIZE builds the vector of a well-formed image, its padding cleared, in a slot that is
not live; anything else is `SlotBusy` or `FormatError`. -/
def Obligations.DeserializeBuildsTheVector : Prop :=
  ∀ (s : State) (c : Command) (sa : SlotIndex) (v : Slot) (n : Nat),
    s.Presents c → s.Holds sa v →
    n = ∑ k ∈ Finset.range 8, (c.din.getD k 0).toNat * 2 ^ (8 * k) →
    (v.live = true → Raises (.deserialize sa) s .slotBusy) ∧
    (v.live = false →
      (c.din.length < 8 ∨ n > 8 * s.maxBytes ∨ c.din.length - 8 ≠ (n + 7) / 8) →
      Raises (.deserialize sa) s .format) ∧
    (v.live = false → 8 ≤ c.din.length → n ≤ 8 * s.maxBytes →
      c.din.length - 8 = (n + 7) / 8 →
      ∃ st, Answers (.deserialize sa) s
          (s.slots.set sa.toNat { live := true, len := n, st := st }) 0 [] ∧
        st.length = (n + 7) / 8 ∧
        ∀ i, storageBit st i = (decide (i < n) && storageBit c.din (64 + i)))

/-- R118. The round trip both ways: a vector loaded from another's image is that vector; an image made
from a loaded vector is the image loaded, but for padding bits of its last byte, which come back zero. -/
def Obligations.ImagesRoundTrip : Prop :=
  (∀ (s t : State) (d : Command) (sa sb : SlotIndex) (a b : Slot) (r : Response),
    s.Inv → s.Holds sa a → a.live = true → s.Holds sb b → b.live = false →
    exec (.serialize sa) s = .next t → t.lastResponse? = some r → r.status = .ok →
    t.Presents d → d.din = r.dout →
    ∃ u, exec (.deserialize sb) t = .next u ∧ u.lastResponse? = some (okResponse 0 []) ∧
      u.Holds sb a ∧ u.Holds sa a) ∧
  (∀ (s t : State) (c d : Command) (sb : SlotIndex),
    s.Inv → s.Presents c → exec (.deserialize sb) s = .next t →
    t.lastResponse? = some (okResponse 0 []) → t.Presents d → d.din = [] →
    ∃ u r, exec (.serialize sb) t = .next u ∧ u.lastResponse? = some r ∧ r.status = .ok ∧
      r.dout.length = c.din.length ∧
      ∀ i, storageBit r.dout i = (storageBit c.din i && decide (i < 64 + unle (c.din.take 8))))

/-! ## Lifecycle (44_lifecycle.md) -/

/-- R127. RELEASE empties the slot, live or not, and answers `OK`. -/
def Obligations.ReleaseEmptiesTheSlot : Prop :=
  ∀ (s : State) (c : Command) (sa : SlotIndex) (v : Slot),
    s.Inv → s.Presents c → s.Holds sa v → c.din = [] →
    Answers (.release sa) s (s.slots.set sa.toNat { live := false, len := 0, st := [] }) 0 [] ∧
    (v.live = false →
      s.slots.set sa.toNat { live := false, len := 0, st := [] } = s.slots)

/-- R125. The only changes of `LIVE`: CREATE and DESERIALIZE set it, RELEASE clears it, and only when
they succeed; and whenever they succeed their slot is live, or not live, afterwards. -/
def Obligations.LiveChangesOnlyByLifecycleCommands : Prop :=
  ∀ (s t : State) (i : Instr) (j : Nat) (v w : Slot),
    exec i s = .next t → s.slots[j]? = some v → t.slots[j]? = some w →
    (v.live ≠ w.live →
      j = i.receiver.toNat ∧ t.lastResponse? = some (okResponse 0 []) ∧
        (v.live = false → i = .create i.receiver ∨ i = .deserialize i.receiver) ∧
        (v.live = true → i = .release i.receiver)) ∧
    (j = i.receiver.toNat → t.lastResponse? = some (okResponse 0 []) →
      (i = .create i.receiver ∨ i = .deserialize i.receiver → v.live = false ∧ w.live = true) ∧
      (i = .release i.receiver → w.live = false))

/-- `LEN` is changed by CREATE, RESIZE, DESERIALIZE and RELEASE alone. -/
def Obligations.LenChangesOnlyByFourCommands : Prop :=
  ∀ (s t : State) (i : Instr) (j : Nat) (v w : Slot),
    exec i s = .next t → s.slots[j]? = some v → t.slots[j]? = some w → v.len ≠ w.len →
    i = .create i.receiver ∨ i = .resize i.receiver ∨ i = .deserialize i.receiver ∨
      i = .release i.receiver

/-- R126, R134. The guard comes before every other check of a legal transaction; the two commands it
does not guard that need an empty slot answer `SlotBusy` first. -/
def Obligations.LifecycleIsCheckedFirst : Prop :=
  ∀ (s : State) (c : Command) (i : Instr) (v : Slot),
    s.Presents c → i.legal s.params c.din.length = true → s.Holds i.receiver v →
    (i.isGuarded = true →
      (v.live = false ∨
        ∃ sb w, i.operand? = some sb ∧ s.Holds sb w ∧ w.live = false) →
      Raises i s .disposed) ∧
    ((i = .create i.receiver ∨ i = .deserialize i.receiver) → v.live = true →
      Raises i s .slotBusy) ∧
    (∀ t, i.isGuarded = false → exec i s = .next t →
      t.lastResponse? ≠ some (errorResponse .disposed))

/-! ## Errors (60_exceptions.md) -/

/-- R135. A transaction that is not answered `OK` leaves the state as it was, with `RESULT = 0` and an
empty `DOUT`. -/
def Obligations.ErrorsChangeNothing : Prop :=
  ∀ (s t : State) (c : Command) (r : Response),
    s.Presents c → step s = .next t → t.lastResponse? = some r → r.status ≠ .ok →
    r.result = 0 ∧ r.dout = [] ∧ t = s.afterTransaction s.slots r

/-- R147. A command answers `OK`, `IllegalCommand`, or an error its row of the table lists; and each
error listed for a command is one it can raise. -/
def Obligations.ErrorsAreThoseOfTheTable : Prop :=
  (∀ (s t : State) (i : Instr), exec i s = .next t →
    ∃ r, t.responses = s.responses ++ [r] ∧
      (r.status = .ok ∨ r.status = .error .illegalCommand ∨
        ∃ e ∈ i.errors, r.status = .error e)) ∧
  (∀ (i : Instr), ∀ e ∈ i.errors, ∃ (j : Instr) (s : State) (c : Command),
    j.opcode = i.opcode ∧ s.Inv ∧ s.Presents c ∧ j.legal s.params c.din.length = true ∧
      Raises j s e)

/-- R68, R137. A transaction that is not a legal command is answered `IllegalCommand` whatever the
state of the slots, and a legal one never is. -/
def Obligations.IllegalCommandExactlyWhenNotLegal : Prop :=
  ∀ (s : State) (c : Command), s.Presents c →
    (¬ LegalTransaction s.params c →
      step s = .next (s.afterTransaction s.slots (errorResponse .illegalCommand))) ∧
    (LegalTransaction s.params c → ∀ t r, step s = .next t →
      t.lastResponse? = some r → r.status ≠ .error .illegalCommand)

/-- R130. Eight status codes, 0 to 7, one for each status. -/
def Obligations.StatusCodesAreTheTable : Prop :=
  [Status.ok, .error .invalidSize, .error .outOfRange, .error .sizeMismatch, .error .disposed,
    .error .format, .error .illegalCommand, .error .slotBusy].map Status.code =
      [0, 1, 2, 3, 4, 5, 6, 7] ∧
  (∀ a b : Status, a.code = b.code → a = b) ∧ ∀ a : Status, a.code.toNat ≤ 7

/-- R143. A read, or a command that fails, presented again gets the same response and changes nothing. -/
def Obligations.ReadsAndFailuresRepeat : Prop :=
  ∀ (s t : State) (c : Command) (i : Instr) (r : Response),
    s.Presents c → exec i s = .next t → t.lastResponse? = some r →
    (i.isRead = true ∨ r.status ≠ .ok) → t.Presents c →
    t.slots = s.slots ∧
      ∃ u, exec i t = .next u ∧ u.slots = s.slots ∧ u.lastResponse? = some r

/-! ## Encoding (30_encoding.md) -/

/-- Decode and encode agree in both directions: a word decodes to a command exactly when it is the
command's encoding. No bit of a word is dropped and no word is read two ways. -/
def Obligations.DecodeIsTheInverseOfEncode : Prop :=
  ∀ (w : Word32) (i : Instr), decode w = .ok i ↔ encode i = w

/-- R67. The decoder reads a row's command from exactly the words that row's mask and match select. -/
def Obligations.DecoderAgreesWithTheOpcodeMap : Prop :=
  ∀ (w : Word32), ∀ r ∈ opcodeRows,
    (w &&& r.mask = r.pattern ↔ ∃ i, decode w = .ok i ∧ i.mnemonic = r.mnemonic)

/-- R69. Reserved encodings select no command and are answered `IllegalCommand`. -/
def Obligations.ReservedEncodingsAreIllegal : Prop :=
  ∀ (s : State) (c : Command), s.Presents c →
    (c.cw.toNat % 256 = 0 ∨ c.cw.toNat % 256 ≥ 0x14 ∨ c.cw.toNat / 2 ^ 25 ≠ 0 ∨
      (c.cw.toNat / 2 ^ 16 % 256 ≠ 0 ∧ c.cw.toNat % 256 ∉ [0x09, 0x0A, 0x0B]) ∨
      (c.cw.toNat / 2 ^ 24 % 2 = 1 ∧ c.cw.toNat % 256 ∉ [0x03, 0x06, 0x08])) →
    (∀ i, decode c.cw ≠ .ok i) ∧
      step s = .next (s.afterTransaction s.slots (errorResponse .illegalCommand))

/-- R72's example words, written out, decode to the commands they stand for. -/
def Obligations.ExampleWordsDecode : Prop :=
  decode 0x01000008 = .ok (.setRange 0 true) ∧ decode 0x00010009 = .ok (.bitAnd 0 1) ∧
    decode 0x00000202 = .ok (.get 2) ∧ decode 0x00000111 = .ok (.deserialize 1) ∧
    decode 0x01000206 = .ok (.setBatch 2 true)

/-- The stream of a batch: `DIN = le64(u64(p0)) ++ le64(u64(p1)) ++ ...` is read as `[p0, p1, ...]`. -/
def Obligations.PositionStreamsReadBack : Prop :=
  ∀ (ps : List Int) (c : Command), (∀ p ∈ ps, -2 ^ 63 ≤ p ∧ p < 2 ^ 63) →
    c.din = ps.flatMap (fun p => le64 (u64 p).toNat) → c.positions = ps

/-- R65. An operand a command does not read affects neither the state nor the response. -/
def Obligations.IgnoredOperandsHaveNoEffect : Prop :=
  ∀ (s t : State) (c d : Command) (rest : List HostInput) (i : Instr),
    s.inputs = .command c :: rest → d.cw = c.cw → d.din = c.din →
    (i.readsA0 = true → d.a0 = c.a0) → (i.readsA1 = true → d.a1 = c.a1) →
    exec i s = .next t → exec i { s with inputs := .command d :: rest } = .next t

/-! ## State, ordering and reset (10_state.md, 20_memory.md, 70_reset_and_hazards.md) -/

/-- R32. After reset, whatever the parameters, every slot is not live with `LEN = 0` and `ST = []`. -/
def Obligations.ResetLeavesEverySlotEmpty : Prop :=
  (∀ p : Params, (State.init p).params = p ∧
    ∀ j < p.nslot, (State.init p).slots[j]? = some { live := false, len := 0, st := [] }) ∧
  ∃ p : Params, p.Legal ∧ State.reset = State.init p

/-- The invariant holds of the reset state for all legal parameters, those `State.reset` has (the model's
choice, log 1) among them. -/
def Obligations.ResetMeetsTheInvariant : Prop :=
  State.reset.Inv ∧ ∀ p : Params, p.Legal → (State.init p).Inv

/-- R23, R24. Every step keeps the invariant: legal parameters, I-SIZE, I-PAD, `LEN <= MAXBITS`, and the
empty form of slots that are not live. -/
def Obligations.StepKeepsTheInvariant : Prop :=
  ∀ s t : State, s.Inv → step s = .next t → t.Inv

/-- What `State.Inv` says of a live slot, in the words of R23 and R24. -/
def Obligations.InvariantIsSizeAndPadding : Prop :=
  ∀ (s : State) (j : Nat) (v : Slot), s.Inv → s.slots[j]? = some v → v.live = true →
    v.len ≤ 8 * s.maxBytes ∧ v.st.length = (v.len + 7) / 8 ∧
      ∀ i, v.len ≤ i → storageBit v.st i = false

/-- R31. A live slot is one-to-one with its sequence of bools: `LEN = |B|` and `ST = pack(B)`. -/
def Obligations.LiveSlotsAreSequencesOfBools : Prop :=
  (∀ (mb : Nat) (v : Slot), Slot.wf mb v = true → v.live = true →
    v.bits.length = v.len ∧ v.st = pack v.bits) ∧
  (∀ (mb : Nat) (q : List Bool), q.length ≤ 8 * mb →
    ∃ v : Slot, Slot.wf mb v = true ∧ v.live = true ∧ v.bits = q ∧
      ∀ w : Slot, Slot.wf mb w = true → w.live = true → w.bits = q → w = v)

/-- R54. A command leaves every slot but its receiver unchanged. -/
def Obligations.OtherSlotsAreUntouched : Prop :=
  ∀ (s t : State) (i : Instr) (j : Nat),
    exec i s = .next t → j ≠ i.receiver.toNat → t.slots[j]? = s.slots[j]?

/-- R54. What a command does depends on no slot it does not name: of two states that agree on the named
slots, on the parameters and on the transaction, one answers if the other does, with the same response and
the same receiver. -/
def Obligations.UnnamedSlotsHaveNoInfluence : Prop :=
  ∀ (s t s' : State) (c : Command) (i : Instr),
    s.Presents c → t.Presents c → s.params = t.params →
    s.slots[i.receiver.toNat]? = t.slots[i.receiver.toNat]? →
    (∀ sb, i.operand? = some sb → s.slots[sb.toNat]? = t.slots[sb.toNat]?) →
    exec i s = .next s' →
    ∃ t', exec i t = .next t' ∧ s'.lastResponse? = t'.lastResponse? ∧
      s'.slots[i.receiver.toNat]? = t'.slots[i.receiver.toNat]?

/-- No command can read an earlier response: a step does the same whatever has been answered before. The
record of responses is the model's own field (log 3). -/
def Obligations.PastResponsesHaveNoInfluence : Prop :=
  ∀ (s t : State) (l : List Response), step s = .next t →
    ∃ new, t.responses = s.responses ++ new ∧
      step { s with responses := l } = .next { t with responses := l ++ new }

/-- The parameters are fixed when the block is built: no step changes one. -/
def Obligations.ParametersNeverChange : Prop :=
  ∀ s t : State, step s = .next t → t.params = s.params

/-- The reset input makes every slot not live and empty, and an abandoned command gets no response (R155).
That it keeps the parameters, the host's later inputs and the record of responses is the model's reading
(log 5). -/
def Obligations.ResetInputEmptiesEverySlot : Prop :=
  ∀ (s : State) (abandoned : Option Command) (rest : List HostInput),
    s.inputs = .reset abandoned :: rest →
    ∃ t, step s = .next t ∧ t.slots = (State.init s.params).slots ∧ t.params = s.params ∧
      t.inputs = rest ∧ t.responses = s.responses

/-- A step runs the command its transaction's word decodes to, and adds nothing. -/
def Obligations.StepRunsTheDecodedCommand : Prop :=
  ∀ (s : State) (c : Command) (i : Instr),
    s.Presents c → decode c.cw = .ok i → step s = exec i s

/-- With nothing presented the block holds its state (the model's reading, log 4). -/
def Obligations.IdleHoldsTheState : Prop :=
  ∀ s : State, s.inputs = [] → step s = .next s

/-- From every state that meets the invariant, every transaction is answered, with one response. -/
def Obligations.EveryTransactionIsAnswered : Prop :=
  ∀ (s : State) (c : Command), s.Inv → s.Presents c →
    ∃ t r, step s = .next t ∧ t.inputs = s.inputs.tail ∧ t.responses = s.responses ++ [r]

/-- From every state that meets the invariant, any list of host inputs runs to its end, one response for
each command and none for a reset, and the invariant holds at the end. -/
def Obligations.HostScriptsRunToTheEnd : Prop :=
  ∀ s : State, s.Inv →
    ∃ t, Host.Core.run Sys2Proof.core s.inputs.length s = .next t ∧ t.Inv ∧ t.inputs = [] ∧
      t.responses.length =
        s.responses.length + s.inputs.countP fun x => match x with
          | .command _ => true
          | .reset _ => false

/-! ## Properties of several commands together -/

/-- Bits lost by a shrink do not come back: after RESIZE to `n` and RESIZE to `m`, the bits at or above
`n` read zero and those below all three lengths are the old ones. -/
def Obligations.ShrinkThenGrowReadsZeros : Prop :=
  ∀ (s t u : State) (c d : Command) (sa : SlotIndex) (v w : Slot),
    s.Inv → s.Holds sa v → v.live = true → s.Presents c → t.Presents d →
    exec (.resize sa) s = .next t → t.lastResponse? = some (okResponse 0 []) →
    exec (.resize sa) t = .next u → u.lastResponse? = some (okResponse 0 []) →
    u.Holds sa w →
    ∀ i < w.len, w.bit i =
      (decide (i < v.len) && decide ((i : Int) < s64 c.a0) && v.bit i)

/-- COUNTBITS after `SETRANGE vA, 0, LEN, 1` returns `LEN`, whatever `LEN` is. -/
def Obligations.CountAfterFillIsTheLength : Prop :=
  ∀ (s t : State) (c d : Command) (sa : SlotIndex) (v : Slot),
    s.Inv → s.Holds sa v → v.live = true → s.Presents c → c.din = [] →
    s64 c.a0 = 0 → s64 c.a1 = v.len → exec (.setRange sa true) s = .next t →
    t.Presents d → d.din = [] →
    ∃ u x, exec (.countBits sa) t = .next u ∧ x.toNat = v.len ∧
      u.lastResponse? = some (okResponse x [])

/-- SET, SETBATCH, SETRANGE, AND, OR and RESIZE are idempotent: presented again, the same transaction
changes nothing more and is answered alike. -/
def Obligations.RepeatedWritesChangeNothingMore : Prop :=
  ∀ (s t : State) (c : Command) (i : Instr) (sa sb : SlotIndex) (val : Bool),
    i ∈ [Instr.set sa val, .setBatch sa val, .setRange sa val, .bitAnd sa sb, .bitOr sa sb,
      .resize sa] →
    s.Inv → s.Presents c → exec i s = .next t → t.Presents c →
    ∃ u, exec i t = .next u ∧ u.slots = t.slots ∧ u.lastResponse? = t.lastResponse?
end

