-- ==== Sys2Proof/Laws/Encoding.lean ====
section
/-! SUPPORT. Laws/Encoding.lean: the fields of an assembled word, and a word put together from its fields. -/

namespace Sys2Proof

theorem assemble_getLsbD (opc : Byte) (sa sb : SlotIndex) (val : Bool) (i : Nat) :
    (assemble opc sa sb val).getLsbD i =
      if i < 8 then opc.getLsbD i
      else if i < 16 then sa.getLsbD (i - 8)
      else if i < 24 then sb.getLsbD (i - 16)
      else (decide (i = 24) && val) := by
  unfold assemble
  rw [BitVec.getLsbD_append, BitVec.getLsbD_append, BitVec.getLsbD_append, BitVec.getLsbD_append]
  by_cases h1 : i < 8
  · simp [h1]
  by_cases h2 : i < 16
  · simp [h1, h2, show i - 8 < 8 by omega]
  by_cases h3 : i < 24
  · simp [h1, h2, h3, show ¬ i - 8 < 8 by omega,
      show i - 8 - 8 = i - 16 by omega, show i - 16 < 8 by omega]
  · by_cases h4 : i = 24
    · subst h4; simp
    · simp [h1, h2, h3, h4, show ¬ i - 8 < 8 by omega, show ¬ i - 8 - 8 < 8 by omega,
        show ¬ i - 8 - 8 - 8 < 1 by omega]

@[simp] theorem opcField_assemble (opc : Byte) (sa sb : SlotIndex) (val : Bool) :
    opcField (assemble opc sa sb val) = opc := by
  refine BitVec.eq_of_getLsbD_eq fun i hi => ?_
  simp [opcField, assemble_getLsbD, hi]

@[simp] theorem saField_assemble (opc : Byte) (sa sb : SlotIndex) (val : Bool) :
    saField (assemble opc sa sb val) = sa := by
  refine BitVec.eq_of_getLsbD_eq fun i hi => ?_
  simp [saField, assemble_getLsbD, hi, show 8 + i < 16 by omega]

@[simp] theorem sbField_assemble (opc : Byte) (sa sb : SlotIndex) (val : Bool) :
    sbField (assemble opc sa sb val) = sb := by
  refine BitVec.eq_of_getLsbD_eq fun i hi => ?_
  simp [sbField, assemble_getLsbD, hi, show ¬ 16 + i < 8 by omega, show 16 + i < 24 by omega]

@[simp] theorem valField_assemble (opc : Byte) (sa sb : SlotIndex) (val : Bool) :
    valField (assemble opc sa sb val) = val := by
  rw [valField, assemble_getLsbD]; simp

@[simp] theorem rsvField_assemble (opc : Byte) (sa sb : SlotIndex) (val : Bool) :
    rsvField (assemble opc sa sb val) = 0 := by
  refine BitVec.eq_of_getLsbD_eq fun i hi => ?_
  simp [rsvField, assemble_getLsbD, hi, show ¬ 25 + i < 8 by omega, show ¬ 25 + i < 16 by omega,
    show ¬ 25 + i < 24 by omega, show 25 + i ≠ 24 by omega]

/-- A word whose reserved bits are zero is assembled from its own fields. -/
theorem assemble_fields {w : Word32} (h : rsvField w = 0) :
    assemble (opcField w) (saField w) (sbField w) (valField w) = w := by
  refine BitVec.eq_of_getLsbD_eq fun i hi => ?_
  rw [assemble_getLsbD]
  split
  · next h1 => simp [opcField, h1]
  split
  · next h1 h2 => simp [saField, show i - 8 < 8 by omega, show 8 + (i - 8) = i by omega]
  split
  · next h1 h2 h3 => simp [sbField, show i - 16 < 8 by omega, show 16 + (i - 16) = i by omega]
  · next h1 h2 h3 =>
    by_cases h4 : i = 24
    · subst h4; simp [valField]
    · have := congrArg (fun x : BitVec 7 => x.getLsbD (i - 25)) h
      simp only [rsvField, BitVec.getLsbD_extractLsb'] at this
      simpa [h4, show i - 25 < 7 by omega, show 25 + (i - 25) = i by omega] using this.symm

theorem formatSA_assemble (mk : SlotIndex → Instr) (opc : Byte) (sa : SlotIndex) :
    formatSA mk (assemble opc sa 0 false) = .ok (mk sa) := by simp [formatSA]

theorem formatSAV_assemble (mk : SlotIndex → Bool → Instr) (opc : Byte) (sa : SlotIndex)
    (val : Bool) : formatSAV mk (assemble opc sa 0 val) = .ok (mk sa val) := by simp [formatSAV]

theorem formatSAB_assemble (mk : SlotIndex → SlotIndex → Instr) (opc : Byte) (sa sb : SlotIndex) :
    formatSAB mk (assemble opc sa sb false) = .ok (mk sa sb) := by simp [formatSAB]

/-! ## A word as a number and as its fields side by side -/

theorem shiftLeft_or_of_lt {a b n : Nat} (h : b < 2 ^ n) : a <<< n ||| b = a * 2 ^ n + b := by
  rw [← Nat.shiftLeft_add_eq_or_of_lt h, Nat.shiftLeft_eq]

/-- `CW = OPC | (SA << 8) | (SB << 16) | (VAL << 24)` as a number (R72). -/
theorem assemble_toNat (opc : Byte) (sa sb : SlotIndex) (val : Bool) :
    (assemble opc sa sb val).toNat =
      opc.toNat + 2 ^ 8 * sa.toNat + 2 ^ 16 * sb.toNat + 2 ^ 24 * val.toNat := by
  unfold assemble
  rw [BitVec.toNat_append, BitVec.toNat_append, BitVec.toNat_append, BitVec.toNat_append,
    shiftLeft_or_of_lt opc.isLt, shiftLeft_or_of_lt sa.isLt, shiftLeft_or_of_lt sb.isLt]
  cases val <;> simp <;> omega

theorem append_eq_append_iff {m n : Nat} {a c : BitVec m} {b d : BitVec n} :
    a ++ b = c ++ d ↔ a = c ∧ b = d := by
  constructor
  · intro h
    have h := congrArg BitVec.toNat h
    rw [BitVec.toNat_append, BitVec.toNat_append, shiftLeft_or_of_lt b.isLt,
      shiftLeft_or_of_lt d.isLt] at h
    have h1 := congrArg (· / 2 ^ n) h
    have h2 := congrArg (· % 2 ^ n) h
    simp only [Nat.mul_comm _ (2 ^ n), Nat.mul_add_div (Nat.two_pow_pos n), Nat.mul_add_mod,
      Nat.div_eq_of_lt b.isLt, Nat.div_eq_of_lt d.isLt, Nat.mod_eq_of_lt b.isLt,
      Nat.mod_eq_of_lt d.isLt] at h1 h2
    exact ⟨BitVec.eq_of_toNat_eq (by simpa using h1), BitVec.eq_of_toNat_eq h2⟩
  · rintro ⟨rfl, rfl⟩; rfl

/-- A word is its five fields side by side (R60). -/
theorem word_fields (w : Word32) :
    w = rsvField w ++ BitVec.ofBool (valField w) ++ sbField w ++ saField w ++ opcField w := by
  refine BitVec.eq_of_getLsbD_eq fun i hi => ?_
  simp only [BitVec.getLsbD_append, opcField, saField, sbField, valField, rsvField]
  interval_cases i <;> simp

theorem fields_and_mask (r : BitVec 7) (v m : BitVec 1) (b n a o k : Byte) :
    ((r ++ v ++ b ++ a ++ o) &&& (0x7F#7 ++ m ++ n ++ 0#8 ++ 0xFF#8) =
      0#7 ++ 0#1 ++ 0#8 ++ 0#8 ++ k) ↔ r = 0 ∧ v &&& m = 0 ∧ b &&& n = 0 ∧ o = k := by
  have e1 : r &&& 0x7F#7 = r := BitVec.and_allOnes
  have e2 : o &&& 0xFF#8 = o := BitVec.and_allOnes
  simp only [BitVec.and_append, append_eq_append_iff, e1, e2]
  simp [and_assoc]

/-- A mask that keeps `OPC` and `RSV` whole, `VAL` by `m` and `SB` by `n`, and drops `SA`. -/
theorem word_and_mask (w : Word32) (m : BitVec 1) (n k : Byte) :
    (w &&& (0x7F#7 ++ m ++ n ++ 0#8 ++ 0xFF#8) = 0#24 ++ k) ↔
      rsvField w = 0 ∧ BitVec.ofBool (valField w) &&& m = 0 ∧ sbField w &&& n = 0 ∧
        opcField w = k := by
  conv => lhs; rw [word_fields w]
  exact fields_and_mask _ _ _ _ _ _ _ _

/-- The mask of format `CW32/SA` (R67). -/
theorem selects_SA_iff (w : Word32) (k : Byte) :
    w &&& 0xFFFF00FF#32 = 0#24 ++ k ↔
      rsvField w = 0 ∧ valField w = false ∧ sbField w = 0 ∧ opcField w = k := by
  rw [show 0xFFFF00FF#32 = 0x7F#7 ++ 1#1 ++ 0xFF#8 ++ 0#8 ++ 0xFF#8 by decide, word_and_mask,
    show sbField w &&& 0xFF#8 = sbField w from BitVec.and_allOnes]
  cases valField w <;> simp

/-- The mask of format `CW32/SAV` (R67). -/
theorem selects_SAV_iff (w : Word32) (k : Byte) :
    w &&& 0xFEFF00FF#32 = 0#24 ++ k ↔ rsvField w = 0 ∧ sbField w = 0 ∧ opcField w = k := by
  rw [show 0xFEFF00FF#32 = 0x7F#7 ++ 0#1 ++ 0xFF#8 ++ 0#8 ++ 0xFF#8 by decide, word_and_mask,
    show sbField w &&& 0xFF#8 = sbField w from BitVec.and_allOnes]
  simp

/-- The mask of format `CW32/SAB` (R67). -/
theorem selects_SAB_iff (w : Word32) (k : Byte) :
    w &&& 0xFF0000FF#32 = 0#24 ++ k ↔ rsvField w = 0 ∧ valField w = false ∧ opcField w = k := by
  rw [show 0xFF0000FF#32 = 0x7F#7 ++ 1#1 ++ 0#8 ++ 0#8 ++ 0xFF#8 by decide, word_and_mask]
  cases valField w <;> simp

end Sys2Proof
end

