-- ==== Sys2Proof/Laws/State.lean ====
section
/-! SUPPORT. Laws/State.lean: one lemma per field per update of the state, each true by unfolding. -/

namespace Sys2Proof.Machine

variable (s : State) (i : SlotIndex) (v : Slot) (r : Response) (e : ErrorKind) (x : Int)
  (q : List Byte) (m : Memory)

@[simp] theorem withSlot_slots : (s.withSlot i v).slots = s.slots.set i.toNat v := rfl
@[simp] theorem withSlot_maxBytes : (s.withSlot i v).maxBytes = s.maxBytes := rfl
@[simp] theorem withSlot_maxBatch : (s.withSlot i v).maxBatch = s.maxBatch := rfl
@[simp] theorem withSlot_inputs : (s.withSlot i v).inputs = s.inputs := rfl
@[simp] theorem withSlot_responses : (s.withSlot i v).responses = s.responses := rfl

@[simp] theorem answer_slots : (s.answer r).slots = s.slots := rfl
@[simp] theorem answer_maxBytes : (s.answer r).maxBytes = s.maxBytes := rfl
@[simp] theorem answer_maxBatch : (s.answer r).maxBatch = s.maxBatch := rfl
@[simp] theorem answer_inputs : (s.answer r).inputs = s.inputs.tail := rfl
@[simp] theorem answer_responses : (s.answer r).responses = s.responses ++ [r] := rfl

@[simp] theorem applyReset_slots :
    (applyReset s).slots = s.slots.map fun _ => Slot.empty := rfl
@[simp] theorem applyReset_maxBytes : (applyReset s).maxBytes = s.maxBytes := rfl
@[simp] theorem applyReset_maxBatch : (applyReset s).maxBatch = s.maxBatch := rfl
@[simp] theorem applyReset_inputs : (applyReset s).inputs = s.inputs.tail := rfl
@[simp] theorem applyReset_responses : (applyReset s).responses = s.responses := rfl

@[simp] theorem afterTransaction_slots : (s.afterTransaction m r).slots = m := rfl
@[simp] theorem afterTransaction_maxBytes : (s.afterTransaction m r).maxBytes = s.maxBytes := rfl
@[simp] theorem afterTransaction_maxBatch : (s.afterTransaction m r).maxBatch = s.maxBatch := rfl
@[simp] theorem afterTransaction_inputs : (s.afterTransaction m r).inputs = s.inputs.tail := rfl
@[simp] theorem afterTransaction_responses :
    (s.afterTransaction m r).responses = s.responses ++ [r] := rfl

@[simp] theorem withFetchWord_slots (n w : Nat) : (s.withFetchWord n w).slots = s.slots := rfl
@[simp] theorem withFetchWord_maxBytes (n w : Nat) :
    (s.withFetchWord n w).maxBytes = s.maxBytes := rfl
@[simp] theorem withFetchWord_maxBatch (n w : Nat) :
    (s.withFetchWord n w).maxBatch = s.maxBatch := rfl
@[simp] theorem withFetchWord_responses (n w : Nat) :
    (s.withFetchWord n w).responses = s.responses := rfl

@[simp] theorem params_nslot : s.params.nslot = s.slots.length := rfl
@[simp] theorem params_maxBytes : s.params.maxBytes = s.maxBytes := rfl
@[simp] theorem params_maxBatch : s.params.maxBatch = s.maxBatch := rfl

/-- Raising an error is a transaction that keeps the slot file (R135). -/
theorem raise_eq_afterTransaction :
    raise e s = s.afterTransaction s.slots (errorResponse e) := rfl

/-- Returning is a transaction that keeps the slot file as it stands (R14). -/
theorem ret_eq_afterTransaction :
    ret s x q = s.afterTransaction s.slots (okResponse (u64 x) q) := rfl

/-- Writing one slot and returning. -/
theorem ret_withSlot_eq_afterTransaction :
    ret (s.withSlot i v) x q =
      s.afterTransaction (s.slots.set i.toNat v) (okResponse (u64 x) q) := rfl

@[simp] theorem raise_slots : (raise e s).slots = s.slots := rfl
@[simp] theorem raise_maxBytes : (raise e s).maxBytes = s.maxBytes := rfl
@[simp] theorem raise_maxBatch : (raise e s).maxBatch = s.maxBatch := rfl
@[simp] theorem raise_inputs : (raise e s).inputs = s.inputs.tail := rfl
@[simp] theorem raise_responses : (raise e s).responses = s.responses ++ [errorResponse e] := rfl

@[simp] theorem ret_slots : (ret s x q).slots = s.slots := rfl
@[simp] theorem ret_maxBytes : (ret s x q).maxBytes = s.maxBytes := rfl
@[simp] theorem ret_maxBatch : (ret s x q).maxBatch = s.maxBatch := rfl
@[simp] theorem ret_inputs : (ret s x q).inputs = s.inputs.tail := rfl
@[simp] theorem ret_responses :
    (ret s x q).responses = s.responses ++ [okResponse (u64 x) q] := rfl

end Sys2Proof.Machine
end

