-- ==== Sys2Proof/Laws/Storage.lean ====
section
/-! SUPPORT. Laws/Storage.lean: one spec lemma per operation on the bytes and bits of a storage. -/

namespace Sys2Proof.Machine

/-! ## Lengths -/

theorem ceil8_bounds (n : Nat) : n ≤ 8 * ceil8 n ∧ 8 * ceil8 n ≤ n + 7 := by
  unfold ceil8; omega

theorem byte_lt_ceil8 {i n : Nat} (h : i < n) : i / 8 < ceil8 n := by
  unfold ceil8; omega

/-! ## Bits -/

theorem storageBit_of_lt {st : List Byte} {i : Nat} (h : i / 8 < st.length) :
    storageBit st i = st[i / 8].getLsbD (i % 8) := by
  simp [storageBit, h]

theorem storageBit_of_ge {st : List Byte} {i : Nat} (h : st.length ≤ i / 8) :
    storageBit st i = false := by
  simp [storageBit, h]

/-- A storage is determined by its length and its bits, padding included. -/
theorem storage_ext {a b : List Byte} (hl : a.length = b.length)
    (hb : ∀ i, storageBit a i = storageBit b i) : a = b := by
  refine List.ext_getElem hl fun k ha hb' => ?_
  refine BitVec.eq_of_getLsbD_eq fun j hj => ?_
  have h := hb (8 * k + j)
  have h1 : (8 * k + j) / 8 = k := by omega
  have h2 : (8 * k + j) % 8 = j := by omega
  rw [storageBit_of_lt (by omega), storageBit_of_lt (by omega)] at h
  simpa [h1, h2] using h

@[simp] theorem storageBit_append (a b : List Byte) (i : Nat) :
    storageBit (a ++ b) i =
      if i < 8 * a.length then storageBit a i else storageBit b (i - 8 * a.length) := by
  unfold storageBit
  split
  · rw [List.getD_append _ _ _ _ (by omega)]
  · rw [List.getD_append_right _ _ _ _ (by omega)]
    rw [show i / 8 - a.length = (i - 8 * a.length) / 8 by omega,
      show i % 8 = (i - 8 * a.length) % 8 by omega]

@[simp] theorem storageBit_zeros (m i : Nat) : storageBit (zeros m) i = false := by
  unfold storageBit zeros
  by_cases h : i / 8 < m <;> simp [h]

@[simp] theorem zeros_length (m : Nat) : (zeros m).length = m := by simp [zeros]

theorem storageBit_take (st : List Byte) (m i : Nat) :
    storageBit (st.take m) i = (decide (i < 8 * m) && storageBit st i) := by
  unfold storageBit
  by_cases h : i < 8 * m
  · simp [h, show i / 8 < m by omega]
  · simp [h, show ¬ i / 8 < m by omega]

/-! ## Reading -/

/-- `bit(s, i)` inside the storage is the stored bit. -/
theorem readBit_spec {st : List Byte} {i : Nat} (h : i / 8 < st.length) :
    readBit st i = some (storageBit st i) := by
  simp [readBit, memRead, storageBit, h]

theorem readBit_outside {st : List Byte} {i : Nat} (h : st.length ≤ i / 8) :
    readBit st i = none := by
  simp [readBit, memRead, h]

/-- Reading a list of positions gives their bits in order. -/
theorem readBits_spec {st : List Byte} {is : List Nat} (h : ∀ i ∈ is, i / 8 < st.length) :
    readBits st is = some (is.map (storageBit st)) := by
  induction is with
  | nil => rfl
  | cons i is ih =>
    simp only [List.mem_cons, forall_eq_or_imp] at h
    simp [readBits, readBit_spec h.1, ih h.2]

/-- The scan finds the first listed position whose bit is 1. -/
theorem firstSet_spec {st : List Byte} {is : List Nat} (h : ∀ i ∈ is, i / 8 < st.length) :
    firstSet st is = some (is.find? (storageBit st)) := by
  induction is with
  | nil => rfl
  | cons i is ih =>
    simp only [List.mem_cons, forall_eq_or_imp] at h
    by_cases hb : storageBit st i = true
    · simp [firstSet, readBit_spec h.1, hb]
    · simp [firstSet, readBit_spec h.1, hb, ih h.2]

/-! ## Writing -/

theorem writeBitOfByte_getLsbD (b : Byte) {j k : Nat} (val : Bool) (hj : j < 8) (hk : k < 8) :
    (writeBitOfByte b j val).getLsbD k = if k = j then val else b.getLsbD k := by
  unfold writeBitOfByte
  rcases Nat.lt_trichotomy k j with h | h | h
  · cases val <;> simp [hk, h, show k ≠ j by omega]
  · subst h; cases val <;> simp [hk]
  · cases val <;> simp [hk, show ¬ k < j by omega, show k ≠ j by omega,
      show k - j ≠ 0 by omega]

/-- `setbit(s, i, v)` inside the storage writes exactly bit `i`. -/
theorem writeBit_spec {st : List Byte} {i : Nat} (val : Bool) (h : i / 8 < st.length) :
    ∃ st', writeBit val st i = some st' ∧ st'.length = st.length ∧
      ∀ j, storageBit st' j = if j = i then val else storageBit st j := by
  refine ⟨st.set (i / 8) (writeBitOfByte st[i / 8] (i % 8) val), ?_, by simp, fun j => ?_⟩
  · simp [writeBit, memRead, memWrite, h]
  · by_cases hj : j / 8 < st.length
    · rw [storageBit_of_lt (by simpa using hj), storageBit_of_lt hj, List.getElem_set]
      by_cases he : i / 8 = j / 8
      · simp only [he, if_true]
        rw [writeBitOfByte_getLsbD _ _ (by omega) (by omega)]
        by_cases hji : j = i
        · subst hji; simp
        · have : j % 8 ≠ i % 8 := by omega
          simp [hji, this]
      · have : j ≠ i := by rintro rfl; exact he rfl
        simp [he, this]
    · rw [storageBit_of_ge (by simpa using hj), storageBit_of_ge (by omega)]
      have : j ≠ i := by rintro rfl; exact hj h
      simp [this]

/-- Writing a list of positions writes exactly those bits. -/
theorem writeBits_spec {st : List Byte} {is : List Nat} (val : Bool)
    (h : ∀ i ∈ is, i / 8 < st.length) :
    ∃ st', writeBits val st is = some st' ∧ st'.length = st.length ∧
      ∀ j, storageBit st' j = if j ∈ is then val else storageBit st j := by
  induction is generalizing st with
  | nil => exact ⟨st, rfl, rfl, by simp⟩
  | cons i is ih =>
    simp only [List.mem_cons, forall_eq_or_imp] at h
    obtain ⟨st₁, h₁, hl₁, hb₁⟩ := writeBit_spec val h.1
    obtain ⟨st₂, h₂, hl₂, hb₂⟩ := ih (st := st₁) (by simpa [hl₁] using h.2)
    refine ⟨st₂, by simp [writeBits, h₁, h₂], by omega, fun j => ?_⟩
    rw [hb₂, hb₁]
    by_cases hj : j ∈ is <;> simp [hj]

theorem mem_rangePositions {lo hi i : Nat} : i ∈ rangePositions lo hi ↔ lo ≤ i ∧ i < hi := by
  simp only [rangePositions, List.mem_range'_1]; omega

/-! ## Whole bytes -/

/-- The loop of NOT over the first `m` bytes. -/
theorem mapBytes_spec (f : Byte → Byte) {m : Nat} {st : List Byte} (h : m ≤ st.length) :
    mapBytes f m st = some ((st.take m).map f ++ st.drop m) := by
  induction m generalizing st with
  | zero => simp [mapBytes]
  | succ m ih =>
    cases st with
    | nil => simp at h
    | cons b st => simp [mapBytes, ih (by simpa using h)]

/-- The loop of AND, OR and XOR over the first `m` bytes. -/
theorem zipBytes_spec (op : Byte → Byte → Byte) {m : Nat} {a b : List Byte} (ha : m ≤ a.length)
    (hb : m ≤ b.length) :
    zipBytes op m a b = some (List.zipWith op (a.take m) (b.take m) ++ a.drop m) := by
  induction m generalizing a b with
  | zero => simp [zipBytes]
  | succ m ih =>
    cases a with
    | nil => simp at ha
    | cons x a =>
      cases b with
      | nil => simp at hb
      | cons y b =>
        simp [zipBytes, ih (by simpa using ha) (by simpa using hb)]

theorem zipBytes_length {op : Byte → Byte → Byte} {m : Nat} {a b st : List Byte}
    (h : zipBytes op m a b = some st) : st.length = a.length := by
  induction m generalizing a b st with
  | zero => simp [zipBytes] at h; simp [h]
  | succ m ih =>
    cases a with
    | nil => simp [zipBytes] at h
    | cons x a =>
      cases b with
      | nil => simp [zipBytes] at h
      | cons y b =>
        simp only [zipBytes, Option.map_eq_some_iff] at h
        obtain ⟨st', h1, rfl⟩ := h
        simp [ih h1]

theorem tailmask_getLsbD (n : Nat) {j : Nat} (hj : j < 8) :
    (tailmask n).getLsbD j = (decide (n % 8 = 0) || decide (j < n % 8)) := by
  have hn : n % 8 < 8 := Nat.mod_lt _ (by omega)
  unfold tailmask
  generalize n % 8 = r at hn
  interval_cases r <;> interval_cases j <;> rfl

theorem maskTail_length (n : Nat) (st : List Byte) : (maskTail n st).length = st.length := by
  unfold maskTail; split <;> simp

/-- Masking keeps the bits below `n` and clears the padding. -/
theorem maskTail_bit {n : Nat} {st : List Byte} (h : st.length = ceil8 n) (i : Nat) :
    storageBit (maskTail n st) i = (decide (i < n) && storageBit st i) := by
  have hc := ceil8_bounds n
  unfold maskTail
  split
  · next h0 =>
    by_cases hi : i < n
    · simp [hi]
    · rw [storageBit_of_ge (by omega)]; simp
  · next h0 =>
    by_cases hi : i / 8 < st.length
    · rw [storageBit_of_lt (by simpa using hi), storageBit_of_lt hi, List.getElem_modify]
      split
      · next he =>
        have hj : i % 8 < 8 := by omega
        rw [BitVec.getLsbD_and, tailmask_getLsbD n hj]
        have : i < n ↔ i % 8 < n % 8 := by omega
        simp [this, h0, Bool.and_comm]
      · next he =>
        have : i < n := by omega
        simp [this]
    · rw [storageBit_of_ge (by simpa using hi), storageBit_of_ge (by omega)]; simp

theorem resizeBytes_length (n : Nat) (old : List Byte) : (resizeBytes n old).length = ceil8 n := by
  unfold resizeBytes; split <;> rw [maskTail_length] <;> simp <;> omega

/-- RESIZE's storage: the old bits below the new length, zeros elsewhere. -/
theorem resizeBytes_bit (n : Nat) (old : List Byte) (i : Nat) :
    storageBit (resizeBytes n old) i = (decide (i < n) && storageBit old i) := by
  have hc := ceil8_bounds n
  unfold resizeBytes
  split
  · rw [maskTail_bit (by simp; omega), storageBit_append]
    split
    · rfl
    · rw [storageBit_zeros, storageBit_of_ge (st := old) (by omega)]
  · rw [maskTail_bit (by simp; omega), storageBit_take]
    by_cases hi : i < n
    · simp [hi, show i < 8 * ceil8 n by omega]
    · simp [hi]

theorem storageBit_map_not (st : List Byte) (i : Nat) :
    storageBit (st.map (~~~ ·)) i = (decide (i < 8 * st.length) && !storageBit st i) := by
  by_cases hi : i / 8 < st.length
  · rw [storageBit_of_lt (by simpa using hi), storageBit_of_lt hi]
    simp [show i < 8 * st.length by omega, show i % 8 < 8 by omega]
  · rw [storageBit_of_ge (by simpa using hi)]
    simp [show ¬ i < 8 * st.length by omega]

/-- A bytewise operation acts bit by bit on storages of one length. -/
theorem storageBit_zipWith {op : Byte → Byte → Byte} {f : Bool → Bool → Bool}
    (hop : ∀ x y : Byte, ∀ j < 8, (op x y).getLsbD j = f (x.getLsbD j) (y.getLsbD j))
    {a b : List Byte} (h : a.length = b.length) {i : Nat} (hi : i < 8 * a.length) :
    storageBit (List.zipWith op a b) i = f (storageBit a i) (storageBit b i) := by
  rw [storageBit_of_lt (by simp; omega), storageBit_of_lt (by omega), storageBit_of_lt (by omega),
    List.getElem_zipWith, hop _ _ _ (by omega)]

/-! ## Little-endian words -/

@[simp] theorem le64_length (x : Nat) : (le64 x).length = 8 := by simp [le64]

/-- The prefix read back is the number written. -/
theorem unle_le64 {x : Nat} (h : x < 2 ^ 64) : unle (le64 x) = x := by
  simp only [le64, List.range, List.range.loop, List.map, unle, BitVec.toNat_ofNat,
    Nat.shiftRight_eq_div_pow]
  omega

theorem unle_lt (b : List Byte) : unle b < 2 ^ (8 * b.length) := by
  induction b with
  | nil => simp [unle]
  | cons x b ih =>
    have hx := x.isLt
    have : 2 ^ (8 * (x :: b).length) = 2 ^ 8 * 2 ^ (8 * b.length) := by
      rw [List.length_cons, ← pow_add]; congr 1; omega
    rw [this]
    simp only [unle]
    omega

/-- The number a prefix reads as, as a sum over its bytes (00_scope.md R13). -/
theorem unle_take_eq_sum (l : List Byte) (n : Nat) :
    unle (l.take n) = ∑ k ∈ Finset.range n, (l.getD k 0).toNat * 2 ^ (8 * k) := by
  induction l generalizing n with
  | nil => simp [unle]
  | cons b l ih =>
    cases n with
    | zero => simp [unle]
    | succ n =>
      rw [Finset.sum_range_succ', List.take_succ_cons, unle, ih, Finset.mul_sum, Nat.add_comm]
      congr 1
      · refine Finset.sum_congr rfl fun k _ => ?_
        rw [show 8 * (k + 1) = 8 * k + 8 by ring, pow_add]; simp; ring
      · simp

/-- Eight bytes are the little-endian form of the number they read as. -/
theorem le64_unle {b : List Byte} (h : b.length = 8) : le64 (unle b) = b := by
  match b, h with
  | [b0, b1, b2, b3, b4, b5, b6, b7], _ =>
    have h0 := b0.isLt; have h1 := b1.isLt; have h2 := b2.isLt; have h3 := b3.isLt
    have h4 := b4.isLt; have h5 := b5.isLt; have h6 := b6.isLt; have h7 := b7.isLt
    simp only [le64, List.range, List.range.loop, List.map, unle, Nat.shiftRight_eq_div_pow,
      List.cons.injEq, and_true, ← BitVec.toNat_inj, BitVec.toNat_ofNat]
    omega

theorem image_length (v : Slot) : (image v).length = 8 + v.st.length := by simp [image]

theorem image_take (v : Slot) : (image v).take 8 = le64 v.len := by
  simp [image]

theorem image_drop (v : Slot) : (image v).drop 8 = v.st := by
  simp [image]

/-! ## Packed bools -/

@[simp] theorem pack_length (q : List Bool) : (pack q).length = ceil8 q.length := by simp [pack]

theorem packNat_testBit (q : List Bool) (k : Nat) : (packNat q).testBit k = q.getD k false := by
  induction q generalizing k with
  | nil => simp [packNat]
  | cons b q ih =>
    cases k with
    | zero => cases b <;> simp [packNat, Nat.testBit_zero]
    | succ k =>
      have h : packNat (b :: q) / 2 = packNat q := by
        cases b <;> simp [packNat]; omega
      rw [Nat.testBit_succ, h, ih]; rfl

/-- Bool `i` of a packed sequence is bit `i` of its bytes, and the bits past its end are zero. -/
theorem pack_bit (q : List Bool) (i : Nat) : storageBit (pack q) i = q.getD i false := by
  have hc := ceil8_bounds q.length
  by_cases hi : i / 8 < ceil8 q.length
  · rw [storageBit_of_lt (by simpa using hi)]
    simp only [pack, List.getElem_map, List.getElem_range, BitVec.getLsbD_ofNat, packNat_testBit]
    simp [show i % 8 < 8 by omega, show 8 * (i / 8) + i % 8 = i by omega]
  · rw [storageBit_of_ge (by simpa using hi)]
    simp [List.getElem?_eq_none (show q.length ≤ i by omega)]

end Sys2Proof.Machine
end

