-- ==== Sys2Proof/Laws/Memory.lean ====
section
/-! SUPPORT. Laws/Memory.lean: the invariants of the slot file in usable form, and that every operation on a
storage or on the slot file keeps them (10_state.md R20 to R24). -/

namespace Sys2Proof.Machine

variable {mb : Nat} {v : Slot} {m : Memory}

theorem wf_empty : Slot.wf mb Slot.empty = true := by simp [Slot.wf, Slot.empty]

/-- A dead slot is well-formed exactly when it is the empty slot. -/
theorem wf_dead_iff (h : v.live = false) : Slot.wf mb v = true ↔ v = Slot.empty := by
  simp [Slot.wf, h]

/-- I-PAD said of the last byte is I-PAD said of every bit at or above `LEN`. -/
theorem padding_iff {n : Nat} {st : List Byte} (hl : st.length = ceil8 n) :
    (st.getD (ceil8 n - 1) 0 &&& ~~~ tailmask n) = 0 ↔ ∀ i, n ≤ i → storageBit st i = false := by
  have hc := ceil8_bounds n
  constructor
  · intro h i hi
    by_cases hb : i / 8 < st.length
    · have he : i / 8 = ceil8 n - 1 := by omega
      have hj : i % 8 < 8 := by omega
      have := congrArg (fun x : Byte => x.getLsbD (i % 8)) h
      simp only [BitVec.getLsbD_and, BitVec.getLsbD_not, tailmask_getLsbD n hj] at this
      have h0 : n % 8 ≠ 0 := by omega
      have h1 : ¬ i % 8 < n % 8 := by omega
      simpa [storageBit, he, h0, h1, hj] using this
    · exact storageBit_of_ge (by omega)
  · intro h
    refine BitVec.eq_of_getLsbD_eq fun j hj => ?_
    rw [BitVec.getLsbD_and, BitVec.getLsbD_not, tailmask_getLsbD n hj]
    by_cases h0 : n % 8 = 0
    · simp [h0, hj]
    by_cases h1 : j < n % 8
    · simp [h0, h1, hj]
    · have := h (8 * (ceil8 n - 1) + j) (by omega)
      have e1 : (8 * (ceil8 n - 1) + j) / 8 = ceil8 n - 1 := by omega
      have e2 : (8 * (ceil8 n - 1) + j) % 8 = j := by omega
      simp only [storageBit, e1, e2] at this
      simpa [h0, h1, hj] using this

/-- A live slot is well-formed exactly when its length fits, I-SIZE holds, and every stored bit at or
above `LEN` is zero. -/
theorem wf_live_iff (h : v.live = true) :
    Slot.wf mb v = true ↔
      v.len ≤ 8 * mb ∧ v.st.length = ceil8 v.len ∧ ∀ i, v.len ≤ i → storageBit v.st i = false := by
  simp only [Slot.wf, h, if_true, Bool.and_eq_true, decide_eq_true_eq, beq_iff_eq, and_assoc]
  constructor
  · rintro ⟨h1, h2, h3⟩; exact ⟨h1, h2, (padding_iff h2).1 h3⟩
  · rintro ⟨h1, h2, h3⟩; exact ⟨h1, h2, (padding_iff h2).2 h3⟩

/-- In a well-formed live slot every position below `LEN` is stored. -/
theorem wf_covers (hw : Slot.wf mb v = true) (hl : v.live = true) {i : Nat} (hi : i < v.len) :
    i / 8 < v.st.length := by
  rw [((wf_live_iff hl).1 hw).2.1]; exact byte_lt_ceil8 hi

/-! ## The slot file -/

theorem Memory.wf_get (hm : Memory.wf mb m = true) {i : Nat} (h : m[i]? = some v) :
    Slot.wf mb v = true := by
  simp only [Memory.wf, List.all_eq_true] at hm
  exact hm v (List.mem_of_getElem? h)

/-- Replacing one slot by a well-formed one keeps the slot file well-formed. -/
theorem Memory.wf_set (hm : Memory.wf mb m = true) (hv : Slot.wf mb v = true) (i : Nat) :
    Memory.wf mb (m.set i v) = true := by
  simp only [Memory.wf, List.all_eq_true] at hm ⊢
  intro x hx
  rcases List.mem_or_eq_of_mem_set hx with h | h
  · exact hm x h
  · exact h ▸ hv

/-- The slot file of a reset block is well-formed. -/
theorem Memory.wf_emptied (m : Memory) : Memory.wf mb (m.map fun _ => Slot.empty) = true := by
  simp [Memory.wf, wf_empty]

theorem Memory.wf_init (n : Nat) : Memory.wf mb (List.replicate n Slot.empty) = true := by
  simp [Memory.wf, wf_empty]

/-! ## The operations on one storage -/

/-- A storage of the right size whose bits at or above `LEN` are zero makes a well-formed slot. -/
theorem wf_vector {n : Nat} {st : List Byte} (h1 : n ≤ 8 * mb) (h2 : st.length = ceil8 n)
    (h3 : ∀ i, n ≤ i → storageBit st i = false) : Slot.wf mb (vector n st) = true :=
  (wf_live_iff rfl).2 ⟨h1, h2, h3⟩

/-- A zero vector (CREATE). -/
theorem wf_zeros {n : Nat} (h : n ≤ 8 * mb) : Slot.wf mb (vector n (zeros (ceil8 n))) = true :=
  wf_vector h (by simp) (by simp)

/-- A masked storage of the right size (AND, OR, XOR, NOT, DESERIALIZE). -/
theorem wf_maskTail {n : Nat} {st : List Byte} (h : n ≤ 8 * mb) (hl : st.length = ceil8 n) :
    Slot.wf mb (vector n (maskTail n st)) = true := by
  refine wf_vector h (by rw [maskTail_length, hl]) fun i hi => ?_
  rw [maskTail_bit hl]; simp [show ¬ i < n by omega]

/-- A resized storage (RESIZE). -/
theorem wf_resizeBytes {n : Nat} (old : List Byte) (h : n ≤ 8 * mb) :
    Slot.wf mb (vector n (resizeBytes n old)) = true := by
  refine wf_vector h (resizeBytes_length n old) fun i hi => ?_
  rw [resizeBytes_bit]; simp [show ¬ i < n by omega]

/-- Bits written below `LEN` (SET, SETBATCH, SETRANGE). -/
theorem wf_writeBits (hw : Slot.wf mb v = true) (hl : v.live = true) {val : Bool} {is : List Nat}
    {st : List Byte} (h : ∀ i ∈ is, i < v.len) (hst : writeBits val v.st is = some st) :
    Slot.wf mb { v with st := st } = true := by
  obtain ⟨st', h1, h2, h3⟩ := writeBits_spec val fun i hi => wf_covers hw hl (h i hi)
  obtain rfl : st' = st := by rw [h1] at hst; exact Option.some.inj hst
  obtain ⟨w1, w2, w3⟩ := (wf_live_iff hl).1 hw
  refine (wf_live_iff (v := { v with st := st' }) hl).2 ⟨w1, by simpa [h2] using w2, fun i hi => ?_⟩
  have : i ∉ is := fun hm => absurd (h i hm) (by simpa using hi)
  simp [h3, this, w3 i hi]

/-- One bit written below `LEN` (SET). -/
theorem wf_writeBit (hw : Slot.wf mb v = true) (hl : v.live = true) {val : Bool} {i : Nat}
    {st : List Byte} (h : i < v.len) (hst : writeBit val v.st i = some st) :
    Slot.wf mb { v with st := st } = true :=
  wf_writeBits hw hl (val := val) (is := [i]) (by simpa using h) (by simp [writeBits, hst])

/-- Two well-formed live vectors with the same length and the same bits below it are equal data (R31). -/
theorem wf_slot_ext {w : Slot} (hv : Slot.wf mb v = true) (hw : Slot.wf mb w = true)
    (lv : v.live = true) (lw : w.live = true) (hl : v.len = w.len)
    (hb : ∀ i < v.len, storageBit v.st i = storageBit w.st i) : v = w := by
  obtain ⟨-, v2, v3⟩ := (wf_live_iff lv).1 hv
  obtain ⟨-, w2, w3⟩ := (wf_live_iff lw).1 hw
  have hst : v.st = w.st := by
    refine storage_ext (by rw [v2, w2, hl]) fun i => ?_
    by_cases hi : i < v.len
    · exact hb i hi
    · rw [v3 i (by omega), w3 i (by omega)]
  cases v; cases w; simp_all

end Sys2Proof.Machine
end

