-- ==== Sys2Proof/Laws/Operands.lean ====
section
/-! SUPPORT. Laws/Operands.lean: the signed words, the positions of a batch and the status codes. -/

namespace Sys2Proof.Machine

theorem s64_bounds (w : Word64) : -2 ^ 63 ≤ s64 w ∧ s64 w < 2 ^ 63 := by
  have := w.isLt
  unfold s64; split <;> omega

theorem s64_of_nonneg {w : Word64} (h : 0 ≤ s64 w) : s64 w = w.toNat := by
  have := w.isLt
  unfold s64 at h ⊢; split at h <;> omega

/-- A count below `2^64` is returned exactly (R70). -/
theorem u64_toNat {n : Nat} (h : n < 2 ^ 64) : (u64 n).toNat = n := by
  simp only [u64, BitVec.ofInt_natCast, BitVec.toNat_ofNat]
  omega

theorem u64_neg_one : u64 (-1) = 0xFFFFFFFFFFFFFFFF := by decide

@[simp] theorem s64_u64 {x : Int} (h1 : -2 ^ 63 ≤ x) (h2 : x < 2 ^ 63) : s64 (u64 x) = x := by
  unfold s64 u64
  rw [BitVec.toNat_ofInt]
  split <;> omega

theorem positions_length (c : Command) : c.positions.length = c.batchSize := by
  simp [Command.positions]

theorem status_code_injective {a b : Status} (h : a.code = b.code) : a = b := by
  revert h
  cases a with
  | ok => cases b with
    | ok => simp
    | error e => cases e <;> decide
  | error e => cases b with
    | ok => cases e <;> decide
    | error f => cases e <;> cases f <;> decide

end Sys2Proof.Machine
end

