-- ==== Sys2Proof/Laws/Shapes.lean ====
section
/-! SUPPORT. Laws/Shapes.lean: what each shape of a command's pseudocode answers, forwards (given what the
state holds) and backwards (given that it answered a next state). -/

namespace Sys2Proof.Machine

variable {s t : State} {c : Command} {v a b : Slot} {sa sb : SlotIndex}

/-! ## Forwards -/

theorem port?_eq_some_iff : s.port? = some c ↔ s.Presents c := by
  unfold State.port? State.Presents
  cases s.inputs with
  | nil => simp
  | cons x _ => cases x <;> simp

@[simp] theorem onCommand_of_presents (h : s.Presents c) (k : Command → Result) :
    onCommand s k = k c := by
  simp [onCommand, port?_eq_some_iff.2 h]

@[simp] theorem onSlot_of_holds (h : s.Holds sa v) (k : Slot → Result) : onSlot s sa k = k v := by
  simp [onSlot, State.slot?, h]

theorem onSlot_outside (h : s.slots[sa.toNat]? = none) (k : Slot → Result) :
    onSlot s sa k = .next (raise .illegalCommand s) := by
  simp [onSlot, State.slot?, h]

theorem require_pos {p : Prop} [Decidable p] (h : p) (e : ErrorKind) (k : Result) :
    require p e s k = k := by simp [require, h]

theorem require_neg {p : Prop} [Decidable p] (h : ¬ p) (e : ErrorKind) (k : Result) :
    require p e s k = .next (raise e s) := by simp [require, h]

@[simp] theorem access_some {α : Type} (x : α) (k : α → Result) : access (some x) k = k x := rfl

/-- A guarded command on an existing slot. -/
theorem guarded_spec {din : Command → Prop} [∀ c, Decidable (din c)] (hc : s.Presents c)
    (hv : s.Holds sa v) (k : Command → Slot → Result) :
    guarded din sa s k =
      if ¬ din c then .next (raise .illegalCommand s)
      else if v.live = false then .next (raise .disposed s)
      else k c v := by
  unfold guarded require
  rw [onCommand_of_presents hc, onSlot_of_holds hv]
  by_cases h1 : din c <;> cases h2 : v.live <;> simp [h1]

/-- CREATE and DESERIALIZE on an existing slot. -/
theorem vacant_spec {din : Command → Prop} [∀ c, Decidable (din c)] (hc : s.Presents c)
    (hv : s.Holds sa v) (k : Command → Result) :
    vacant din sa s k =
      if ¬ din c then .next (raise .illegalCommand s)
      else if v.live = true then .next (raise .slotBusy s)
      else k c := by
  unfold vacant require
  rw [onCommand_of_presents hc, onSlot_of_holds hv]
  by_cases h1 : din c <;> cases h2 : v.live <;> simp [h1]

/-- AND, OR and XOR on existing slots. -/
theorem guardedPair_spec (hc : s.Presents c) (ha : s.Holds sa a) (hb : s.Holds sb b)
    (k : Slot → Slot → Result) :
    guardedPair sa sb s k =
      if c.din.length ≠ 0 then .next (raise .illegalCommand s)
      else if ¬ (a.live = true ∧ b.live = true) then .next (raise .disposed s)
      else k a b := by
  unfold guardedPair require
  rw [onCommand_of_presents hc, onSlot_of_holds ha, onSlot_of_holds hb]
  by_cases h1 : c.din.length = 0 <;> cases a.live <;> cases b.live <;> simp [h1]

/-- A guarded command whose stream is right, on a live slot, runs its own part. -/
theorem guarded_run {din : Command → Prop} [∀ c, Decidable (din c)] (hc : s.Presents c)
    (hv : s.Holds sa v) (hd : din c) (hl : v.live = true) (k : Command → Slot → Result) :
    guarded din sa s k = k c v := by
  rw [guarded_spec hc hv, if_neg (not_not.2 hd), if_neg (by simp [hl])]

/-- A guarded command whose stream is right, on a slot that is not live, raises `DisposedError`. -/
theorem guarded_dead {din : Command → Prop} [∀ c, Decidable (din c)] (hc : s.Presents c)
    (hv : s.Holds sa v) (hd : din c) (hl : v.live = false) (k : Command → Slot → Result) :
    guarded din sa s k = .next (raise .disposed s) := by
  rw [guarded_spec hc hv, if_neg (not_not.2 hd), if_pos hl]

/-- CREATE or DESERIALIZE whose stream is right, on a slot that is not live, runs its own part. -/
theorem vacant_run {din : Command → Prop} [∀ c, Decidable (din c)] (hc : s.Presents c)
    (hv : s.Holds sa v) (hd : din c) (hl : v.live = false) (k : Command → Result) :
    vacant din sa s k = k c := by
  rw [vacant_spec hc hv, if_neg (not_not.2 hd), if_neg (by simp [hl])]

/-- CREATE or DESERIALIZE whose stream is right, on a live slot, raises `SlotBusy`. -/
theorem vacant_busy {din : Command → Prop} [∀ c, Decidable (din c)] (hc : s.Presents c)
    (hv : s.Holds sa v) (hd : din c) (hl : v.live = true) (k : Command → Result) :
    vacant din sa s k = .next (raise .slotBusy s) := by
  rw [vacant_spec hc hv, if_neg (not_not.2 hd), if_pos hl]

/-- AND, OR or XOR with an empty stream, on two live slots, runs its own part. -/
theorem guardedPair_run (hc : s.Presents c) (ha : s.Holds sa a) (hb : s.Holds sb b)
    (hd : c.din.length = 0) (hla : a.live = true) (hlb : b.live = true)
    (k : Slot → Slot → Result) : guardedPair sa sb s k = k a b := by
  rw [guardedPair_spec hc ha hb, if_neg (not_not.2 hd), if_neg (not_not.2 ⟨hla, hlb⟩)]

/-- AND, OR or XOR with an empty stream and a slot that is not live raises `DisposedError`. -/
theorem guardedPair_dead (hc : s.Presents c) (ha : s.Holds sa a) (hb : s.Holds sb b)
    (hd : c.din.length = 0) (hl : a.live = false ∨ b.live = false)
    (k : Slot → Slot → Result) : guardedPair sa sb s k = .next (raise .disposed s) := by
  rw [guardedPair_spec hc ha hb, if_neg (not_not.2 hd), if_pos (by rcases hl with h | h <;> simp [h])]

/-! ## Backwards -/

theorem onCommand_next {k : Command → Result} (h : onCommand s k = .next t) :
    ∃ c, s.Presents c ∧ k c = .next t := by
  unfold onCommand at h
  split at h
  · next c hc => exact ⟨c, port?_eq_some_iff.1 hc, h⟩
  · cases h

theorem onSlot_next {k : Slot → Result} (h : onSlot s sa k = .next t) :
    t = raise .illegalCommand s ∨ ∃ v, s.Holds sa v ∧ k v = .next t := by
  unfold onSlot at h
  split at h
  · next v hv => exact .inr ⟨v, hv, h⟩
  · cases h; exact .inl rfl

theorem require_next {p : Prop} [Decidable p] {e : ErrorKind} {k : Result}
    (h : require p e s k = .next t) : t = raise e s ∨ p ∧ k = .next t := by
  unfold require at h
  split at h
  · next hp => exact .inr ⟨hp, h⟩
  · cases h; exact .inl rfl

theorem access_next {α : Type} {x : Option α} {k : α → Result} (h : access x k = .next t) :
    ∃ y, x = some y ∧ k y = .next t := by
  cases x with
  | none => cases h
  | some y => exact ⟨y, rfl, h⟩

/-- A guarded command that answers either raised one of two errors or ran past the guard. -/
theorem guarded_next {din : Command → Prop} [∀ c, Decidable (din c)]
    {k : Command → Slot → Result} (h : guarded din sa s k = .next t) :
    t = raise .illegalCommand s ∨ t = raise .disposed s ∨
      ∃ c v, s.Presents c ∧ s.Holds sa v ∧ din c ∧ v.live = true ∧ k c v = .next t := by
  obtain ⟨c, hc, h⟩ := onCommand_next h
  obtain h | ⟨v, hv, h⟩ := onSlot_next h
  · exact .inl h
  obtain h | ⟨hd, h⟩ := require_next h
  · exact .inl h
  obtain h | ⟨hl, h⟩ := require_next h
  · exact .inr (.inl h)
  exact .inr (.inr ⟨c, v, hc, hv, hd, hl, h⟩)

/-- CREATE or DESERIALIZE that answers either raised one of two errors or ran past the check. -/
theorem vacant_next {din : Command → Prop} [∀ c, Decidable (din c)]
    {k : Command → Result} (h : vacant din sa s k = .next t) :
    t = raise .illegalCommand s ∨ t = raise .slotBusy s ∨
      ∃ c v, s.Presents c ∧ s.Holds sa v ∧ din c ∧ v.live = false ∧ k c = .next t := by
  obtain ⟨c, hc, h⟩ := onCommand_next h
  obtain h | ⟨v, hv, h⟩ := onSlot_next h
  · exact .inl h
  obtain h | ⟨hd, h⟩ := require_next h
  · exact .inl h
  obtain h | ⟨hl, h⟩ := require_next h
  · exact .inr (.inl h)
  exact .inr (.inr ⟨c, v, hc, hv, hd, hl, h⟩)

/-- AND, OR or XOR that answers either raised one of two errors or ran past the guard. -/
theorem guardedPair_next {k : Slot → Slot → Result} (h : guardedPair sa sb s k = .next t) :
    t = raise .illegalCommand s ∨ t = raise .disposed s ∨
      ∃ c a b, s.Presents c ∧ s.Holds sa a ∧ s.Holds sb b ∧ c.din.length = 0 ∧
        (a.live = true ∧ b.live = true) ∧ k a b = .next t := by
  obtain ⟨c, hc, h⟩ := onCommand_next h
  obtain h | ⟨a, ha, h⟩ := onSlot_next h
  · exact .inl h
  obtain h | ⟨b, hb, h⟩ := onSlot_next h
  · exact .inl h
  obtain h | ⟨hd, h⟩ := require_next h
  · exact .inl h
  obtain h | ⟨hl, h⟩ := require_next h
  · exact .inr (.inl h)
  exact .inr (.inr ⟨c, a, b, hc, ha, hb, hd, hl, h⟩)

end Sys2Proof.Machine
end

