-- ==== Sys2Proof/Laws/Exec.lean ====
section
/-! SUPPORT. Laws/Exec.lean: what any command can do when it answers a next state. -/

namespace Sys2Proof.Machine

/-- What a command does when it answers: it raised an error of its own (or `IllegalCommand`), or it
read and returned, or it replaced its receiver by a slot that is well-formed if the old one was, and
returned 0 and an empty stream. -/
inductive Did (i : Instr) (s t : State) : Prop where
  /-- It raised an error. -/
  | raised (e : ErrorKind) (he : e = .illegalCommand ∨ e ∈ i.errors) (ht : t = raise e s)
  /-- It only read. -/
  | returned (x : Int) (q : List Byte) (hr : i.isRead = true) (ht : t = ret s x q)
  /-- It replaced its receiver. -/
  | wrote (v w : Slot) (hr : i.isRead = false) (hv : s.Holds i.receiver v)
      (hw : Slot.wf s.maxBytes v = true → Slot.wf s.maxBytes w = true)
      (ht : t = ret (s.withSlot i.receiver w) 0 [])

variable {s t : State} {sa sb : SlotIndex} {val : Bool}

theorem execCreate_did (h : execCreate sa s = .next t) : Did (.create sa) s t := by
  obtain h | h | ⟨c, v, -, hv, -, hl, h⟩ := vacant_next h
  · exact .raised _ (.inl rfl) h
  · exact .raised _ (.inr (by simp [Instr.errors])) h
  obtain h | ⟨hs, h⟩ := require_next h
  · exact .raised _ (.inr (by simp [Instr.errors])) h
  cases h
  exact .wrote v _ rfl hv (fun _ => wf_zeros (by have := hs.2; simp only [State.maxBits] at this; omega)) rfl

theorem execGet_did (h : execGet sa s = .next t) : Did (.get sa) s t := by
  obtain h | h | ⟨c, v, -, hv, -, hl, h⟩ := guarded_next h
  · exact .raised _ (.inl rfl) h
  · exact .raised _ (.inr (by simp [Instr.errors])) h
  obtain h | ⟨-, h⟩ := require_next h
  · exact .raised _ (.inr (by simp [Instr.errors])) h
  obtain ⟨b, -, h⟩ := access_next h
  cases h
  exact .returned _ _ rfl rfl

theorem execSet_did (h : execSet sa val s = .next t) : Did (.set sa val) s t := by
  obtain h | h | ⟨c, v, -, hv, -, hl, h⟩ := guarded_next h
  · exact .raised _ (.inl rfl) h
  · exact .raised _ (.inr (by simp [Instr.errors])) h
  obtain h | ⟨hp, h⟩ := require_next h
  · exact .raised _ (.inr (by simp [Instr.errors])) h
  obtain ⟨st, hst, h⟩ := access_next h
  cases h
  exact .wrote v _ rfl hv (fun hw => wf_writeBit hw hl (by have := hp.1; have := hp.2; omega) hst) rfl

theorem execResize_did (h : execResize sa s = .next t) : Did (.resize sa) s t := by
  obtain h | h | ⟨c, v, -, hv, -, hl, h⟩ := guarded_next h
  · exact .raised _ (.inl rfl) h
  · exact .raised _ (.inr (by simp [Instr.errors])) h
  obtain h | ⟨hs, h⟩ := require_next h
  · exact .raised _ (.inr (by simp [Instr.errors])) h
  cases h
  refine .wrote v _ rfl hv (fun _ => ?_) rfl
  rw [hl]
  exact wf_resizeBytes _ (by have := hs.2; simp only [State.maxBits] at this; omega)

theorem execGetBatch_did (h : execGetBatch sa s = .next t) : Did (.getBatch sa) s t := by
  obtain h | h | ⟨c, v, -, hv, -, hl, h⟩ := guarded_next h
  · exact .raised _ (.inl rfl) h
  · exact .raised _ (.inr (by simp [Instr.errors])) h
  obtain h | ⟨-, h⟩ := require_next h
  · exact .raised _ (.inr (by simp [Instr.errors])) h
  obtain ⟨b, -, h⟩ := access_next h
  cases h
  exact .returned _ _ rfl rfl

theorem execSetBatch_did (h : execSetBatch sa val s = .next t) : Did (.setBatch sa val) s t := by
  obtain h | h | ⟨c, v, -, hv, -, hl, h⟩ := guarded_next h
  · exact .raised _ (.inl rfl) h
  · exact .raised _ (.inr (by simp [Instr.errors])) h
  obtain h | ⟨hp, h⟩ := require_next h
  · exact .raised _ (.inr (by simp [Instr.errors])) h
  obtain ⟨st, hst, h⟩ := access_next h
  cases h
  refine .wrote v _ rfl hv (fun hw => wf_writeBits hw hl (fun i hi => ?_) hst) rfl
  obtain ⟨p, hm, rfl⟩ := List.mem_map.1 hi
  have := hp p hm
  omega

theorem execGetRange_did (h : execGetRange sa s = .next t) : Did (.getRange sa) s t := by
  obtain h | h | ⟨c, v, -, hv, -, hl, h⟩ := guarded_next h
  · exact .raised _ (.inl rfl) h
  · exact .raised _ (.inr (by simp [Instr.errors])) h
  obtain h | ⟨-, h⟩ := require_next h
  · exact .raised _ (.inr (by simp [Instr.errors])) h
  obtain ⟨b, -, h⟩ := access_next h
  cases h
  exact .returned _ _ rfl rfl

theorem execSetRange_did (h : execSetRange sa val s = .next t) : Did (.setRange sa val) s t := by
  obtain h | h | ⟨c, v, -, hv, -, hl, h⟩ := guarded_next h
  · exact .raised _ (.inl rfl) h
  · exact .raised _ (.inr (by simp [Instr.errors])) h
  obtain h | ⟨hp, h⟩ := require_next h
  · exact .raised _ (.inr (by simp [Instr.errors])) h
  obtain ⟨st, hst, h⟩ := access_next h
  cases h
  refine .wrote v _ rfl hv (fun hw => wf_writeBits hw hl (fun i hi => ?_) hst) rfl
  have := mem_rangePositions.1 hi
  obtain ⟨h1, h2, h3⟩ := hp
  omega

theorem execFindFirst_did (h : execFindFirst sa s = .next t) : Did (.findFirst sa) s t := by
  obtain h | h | ⟨c, v, -, hv, -, hl, h⟩ := guarded_next h
  · exact .raised _ (.inl rfl) h
  · exact .raised _ (.inr (by simp [Instr.errors])) h
  obtain ⟨b, -, h⟩ := access_next h
  cases h
  exact .returned _ _ rfl rfl

theorem execCountBits_did (h : execCountBits sa s = .next t) : Did (.countBits sa) s t := by
  obtain h | h | ⟨c, v, -, hv, -, hl, h⟩ := guarded_next h
  · exact .raised _ (.inl rfl) h
  · exact .raised _ (.inr (by simp [Instr.errors])) h
  obtain ⟨b, -, h⟩ := access_next h
  cases h
  exact .returned _ _ rfl rfl

theorem execCountBytes_did (h : execCountBytes sa s = .next t) : Did (.countBytes sa) s t := by
  obtain h | h | ⟨c, v, -, hv, -, hl, h⟩ := guarded_next h
  · exact .raised _ (.inl rfl) h
  · exact .raised _ (.inr (by simp [Instr.errors])) h
  cases h
  exact .returned _ _ rfl rfl

theorem execLength_did (h : execLength sa s = .next t) : Did (.length sa) s t := by
  obtain h | h | ⟨c, v, -, hv, -, hl, h⟩ := guarded_next h
  · exact .raised _ (.inl rfl) h
  · exact .raised _ (.inr (by simp [Instr.errors])) h
  cases h
  exact .returned _ _ rfl rfl

/-- The common contract of AND, OR and XOR, for any command it is the meaning of. -/
theorem bitwise_did {op : Byte → Byte → Byte} {i : Instr} (hr : i.receiver = sa)
    (hi : i.isRead = false) (he : i.errors = [.sizeMismatch, .disposed])
    (h : bitwise op sa sb s = .next t) : Did i s t := by
  obtain h | h | ⟨c, a, b, -, ha, hb, -, hl, h⟩ := guardedPair_next h
  · exact .raised _ (.inl rfl) h
  · exact .raised _ (.inr (by simp [he])) h
  obtain h | ⟨hlen, h⟩ := require_next h
  · exact .raised _ (.inr (by simp [he])) h
  obtain ⟨st, hst, h⟩ := access_next h
  cases h
  subst hr
  refine .wrote a _ hi ha (fun hw => ?_) rfl
  obtain ⟨w1, w2, -⟩ := (wf_live_iff hl.1).1 hw
  rw [hl.1]
  exact wf_maskTail w1 (by rw [zipBytes_length hst, w2])

theorem execNot_did (h : execNot sa s = .next t) : Did (.bitNot sa) s t := by
  obtain h | h | ⟨c, v, -, hv, -, hl, h⟩ := guarded_next h
  · exact .raised _ (.inl rfl) h
  · exact .raised _ (.inr (by simp [Instr.errors])) h
  obtain ⟨st, hst, h⟩ := access_next h
  cases h
  refine .wrote v _ rfl hv (fun hw => ?_) rfl
  obtain ⟨w1, w2, -⟩ := (wf_live_iff hl).1 hw
  rw [mapBytes_spec _ (by omega)] at hst
  obtain rfl := Option.some.inj hst
  rw [hl]
  exact wf_maskTail w1 (by simp; omega)

theorem execSerialize_did (h : execSerialize sa s = .next t) : Did (.serialize sa) s t := by
  obtain h | h | ⟨c, v, -, hv, -, hl, h⟩ := guarded_next h
  · exact .raised _ (.inl rfl) h
  · exact .raised _ (.inr (by simp [Instr.errors])) h
  cases h
  exact .returned _ _ rfl rfl

theorem execDeserialize_did (h : execDeserialize sa s = .next t) : Did (.deserialize sa) s t := by
  obtain h | h | ⟨c, v, -, hv, -, hl, h⟩ := vacant_next h
  · exact .raised _ (.inl rfl) h
  · exact .raised _ (.inr (by simp [Instr.errors])) h
  obtain h | ⟨h1, h⟩ := require_next h
  · exact .raised _ (.inr (by simp [Instr.errors])) h
  obtain h | ⟨h2, h⟩ := require_next h
  · exact .raised _ (.inr (by simp [Instr.errors])) h
  obtain h | ⟨h3, h⟩ := require_next h
  · exact .raised _ (.inr (by simp [Instr.errors])) h
  cases h
  exact .wrote v _ rfl hv (fun _ => wf_maskTail h2 (by simpa using h3)) rfl

theorem execRelease_did (h : execRelease sa s = .next t) : Did (.release sa) s t := by
  obtain ⟨c, hc, h⟩ := onCommand_next h
  obtain h | ⟨v, hv, h⟩ := onSlot_next h
  · exact .raised _ (.inl rfl) h
  obtain h | ⟨hd, h⟩ := require_next h
  · exact .raised _ (.inl rfl) h
  cases h
  exact .wrote v _ rfl hv (fun _ => wf_empty) rfl

/-- The inversion lemma of `exec`: everything a command can do when it answers. -/
theorem exec_did {i : Instr} (h : exec i s = .next t) : Did i s t := by
  cases i with
  | create sa => exact execCreate_did h
  | get sa => exact execGet_did h
  | set sa val => exact execSet_did h
  | resize sa => exact execResize_did h
  | getBatch sa => exact execGetBatch_did h
  | setBatch sa val => exact execSetBatch_did h
  | getRange sa => exact execGetRange_did h
  | setRange sa val => exact execSetRange_did h
  | bitAnd sa sb => exact bitwise_did rfl rfl rfl h
  | bitOr sa sb => exact bitwise_did rfl rfl rfl h
  | bitXor sa sb => exact bitwise_did rfl rfl rfl h
  | bitNot sa => exact execNot_did h
  | findFirst sa => exact execFindFirst_did h
  | countBits sa => exact execCountBits_did h
  | countBytes sa => exact execCountBytes_did h
  | serialize sa => exact execSerialize_did h
  | deserialize sa => exact execDeserialize_did h
  | release sa => exact execRelease_did h
  | length sa => exact execLength_did h

end Sys2Proof.Machine
end

