-- ==== Sys2Proof/Laws/PerInstr.lean ====
section
/-! SUPPORT. Laws/PerInstr.lean: what the fields of every command's encoded word are (30_encoding.md R60, R72). -/

namespace Sys2Proof.Laws.EncodedFields

/-- The encoded word carries the command's operation code, slots and bool, zero in every field the
command does not use, and zero reserved bits. -/
def Statement (i : Instr) : Prop :=
  opcField (encode i) = i.opcode ∧ saField (encode i) = i.receiver ∧
    sbField (encode i) = i.operand?.getD 0 ∧ valField (encode i) = i.value?.getD false ∧
    rsvField (encode i) = 0

theorem create (sa : SlotIndex) : Statement (.create sa) := by simp [Statement, encode]

theorem get (sa : SlotIndex) : Statement (.get sa) := by simp [Statement, encode]

theorem set (sa : SlotIndex) (val : Bool) : Statement (.set sa val) := by simp [Statement, encode]

theorem resize (sa : SlotIndex) : Statement (.resize sa) := by simp [Statement, encode]

theorem getBatch (sa : SlotIndex) : Statement (.getBatch sa) := by simp [Statement, encode]

theorem setBatch (sa : SlotIndex) (val : Bool) : Statement (.setBatch sa val) := by simp [Statement, encode]

theorem getRange (sa : SlotIndex) : Statement (.getRange sa) := by simp [Statement, encode]

theorem setRange (sa : SlotIndex) (val : Bool) : Statement (.setRange sa val) := by simp [Statement, encode]

theorem bitAnd (sa sb : SlotIndex) : Statement (.bitAnd sa sb) := by simp [Statement, encode]

theorem bitOr (sa sb : SlotIndex) : Statement (.bitOr sa sb) := by simp [Statement, encode]

theorem bitXor (sa sb : SlotIndex) : Statement (.bitXor sa sb) := by simp [Statement, encode]

theorem bitNot (sa : SlotIndex) : Statement (.bitNot sa) := by simp [Statement, encode]

theorem findFirst (sa : SlotIndex) : Statement (.findFirst sa) := by simp [Statement, encode]

theorem countBits (sa : SlotIndex) : Statement (.countBits sa) := by simp [Statement, encode]

theorem countBytes (sa : SlotIndex) : Statement (.countBytes sa) := by simp [Statement, encode]

theorem serialize (sa : SlotIndex) : Statement (.serialize sa) := by simp [Statement, encode]

theorem deserialize (sa : SlotIndex) : Statement (.deserialize sa) := by simp [Statement, encode]

theorem release (sa : SlotIndex) : Statement (.release sa) := by simp [Statement, encode]

theorem length (sa : SlotIndex) : Statement (.length sa) := by simp [Statement, encode]

end Sys2Proof.Laws.EncodedFields
end

