-- ==== Sys2Proof/Laws/Step.lean ====
section
/-! SUPPORT. Laws/Step.lean: what one step of the block can be, and the responses and bounds the provers meet. -/

namespace Sys2Proof.Machine

variable {s t : State} {c : Command}

theorem presents_inputs (h : s.Presents c) : ∃ rest, s.inputs = .command c :: rest := by
  unfold State.Presents at h
  cases hs : s.inputs with
  | nil => simp [hs] at h
  | cons x l => simp [hs] at h; subst h; exact ⟨l, rfl⟩

theorem step_of_decode_error {e : DecodeError} (h : s.Presents c) (hd : decode c.cw = .error e) :
    step s = .next (raise .illegalCommand s) := by
  obtain ⟨r, h⟩ := presents_inputs h
  simp [step, nextWork, h, hd]

/-- Everything one step can be: the wait, a reset, a rejected word, or a decoded command. -/
theorem step_cases (h : step s = .next t) :
    (s.inputs = [] ∧ t = s) ∨
    (∃ a rest, s.inputs = .reset a :: rest ∧ t = applyReset s) ∨
    (∃ c e, s.Presents c ∧ decode c.cw = .error e ∧ t = raise .illegalCommand s) ∨
    (∃ c i, s.Presents c ∧ decode c.cw = .ok i ∧ exec i s = .next t) := by
  unfold step nextWork at h
  cases hs : s.inputs with
  | nil => simp only [hs] at h; cases h; exact .inl ⟨rfl, rfl⟩
  | cons x rest =>
    cases x with
    | reset a => simp only [hs] at h; cases h; exact .inr (.inl ⟨a, rest, rfl, rfl⟩)
    | command c =>
      simp only [hs] at h
      cases hd : decode c.cw with
      | error e => simp only [hd] at h; cases h; exact .inr (.inr (.inl ⟨c, e, by simp [State.Presents, hs], hd, rfl⟩))
      | ok i => simp only [hd] at h; exact .inr (.inr (.inr ⟨c, i, by simp [State.Presents, hs], hd, h⟩))

@[simp] theorem lastResponse?_ret {x : Int} {q : List Byte} :
    (ret s x q).lastResponse? = some (okResponse (u64 x) q) := by simp [State.lastResponse?]

@[simp] theorem lastResponse?_raise {e : ErrorKind} :
    (raise e s).lastResponse? = some (errorResponse e) := by simp [State.lastResponse?]

/-- A live slot of a state that meets the invariant is shorter than `2^63` bits (00_scope.md R5). -/
theorem Inv_len_lt {v : Slot} (hi : s.Inv) (hw : Slot.wf s.maxBytes v = true) (hl : v.live = true) :
    v.len < 2 ^ 63 := by
  have h1 := ((wf_live_iff hl).1 hw).1
  have h2 : s.maxBytes ≤ 2 ^ 60 - 1 := hi.1.2.1.2
  omega

end Sys2Proof.Machine
end

