-- ==== Sys2Proof/Tests/Slice0.lean ====
section
/-! SUPPORT. Tests/Slice0.lean: words and results written out from the rules and examples of spec/, ill-formed terms
refused, and for each statement with hypotheses a concrete state that meets them. -/

namespace Sys2Proof.Tests

open Sys2Proof.Machine

/-! ## WellFormed and its refusals (30_encoding.md R68 steps 2 to 4) -/

/-- Three slots of two bytes, batches of at most eight positions. -/
def small : Params := { nslot := 3, maxBytes := 2, maxBatch := 8 }

theorem test_wellFormed_accepts :
    (Instr.bitAnd 2 2).wellFormed small = true ∧ (Instr.get 2).legal small 0 = true ∧
      (Instr.getBatch 0).legal small 64 = true ∧ (Instr.deserialize 0).legal small 3 = true := by decide

theorem test_wellFormed_refuses_receiver :
    (Instr.get 3).receiverExists small = false ∧ (Instr.get 3).wellFormed small = false := by decide

theorem test_wellFormed_refuses_operand :
    (Instr.bitXor 0 3).operandExists small = false ∧
      (Instr.bitXor 0 3).wellFormed small = false := by decide

theorem test_legal_refuses_stream : (Instr.get 0).legal small 1 = false := by decide

theorem test_legal_refuses_partial_position : (Instr.getBatch 0).legal small 7 = false := by decide

theorem test_legal_refuses_long_batch : (Instr.setBatch 0 true).legal small 72 = false := by decide

/-! ## Decoding: every command from a word written out as `RSV VAL SB SA OPC` (R60, R67) -/

theorem test_decode_packed_store :
    decode 0b0000000_0_00000000_00000011_00000001 = .ok (.create 3) ∧
    decode 0b0000000_0_00000000_00000010_00000010 = .ok (.get 2) ∧
    decode 0b0000000_1_00000000_00000001_00000011 = .ok (.set 1 true) ∧
    decode 0b0000000_0_00000000_11111111_00000011 = .ok (.set 255 false) ∧
    decode 0b0000000_0_00000000_00000101_00000100 = .ok (.resize 5) := by decide

theorem test_decode_range_batch :
    decode 0b0000000_0_00000000_00000110_00000101 = .ok (.getBatch 6) ∧
    decode 0b0000000_1_00000000_00000010_00000110 = .ok (.setBatch 2 true) ∧
    decode 0b0000000_0_00000000_00000111_00000111 = .ok (.getRange 7) ∧
    decode 0b0000000_1_00000000_00000000_00001000 = .ok (.setRange 0 true) ∧
    decode 0b0000000_0_00000000_00001101_00001101 = .ok (.findFirst 13) ∧
    decode 0b0000000_0_00000000_00001110_00001110 = .ok (.countBits 14) ∧
    decode 0b0000000_0_00000000_00001111_00001111 = .ok (.countBytes 15) ∧
    decode 0b0000000_0_00000000_10000000_00010011 = .ok (.length 128) := by decide

theorem test_decode_bitwise_algebra :
    decode 0b0000000_0_00000001_00000000_00001001 = .ok (.bitAnd 0 1) ∧
    decode 0b0000000_0_00000011_00000010_00001010 = .ok (.bitOr 2 3) ∧
    decode 0b0000000_0_11111111_00000001_00001011 = .ok (.bitXor 1 255) ∧
    decode 0b0000000_0_00000000_00000100_00001100 = .ok (.bitNot 4) := by decide

theorem test_decode_serialization :
    decode 0b0000000_0_00000000_00000010_00010000 = .ok (.serialize 2) ∧
    decode 0b0000000_0_00000000_00000001_00010001 = .ok (.deserialize 1) := by decide

theorem test_decode_lifecycle :
    decode 0b0000000_0_00000000_00000000_00010010 = .ok (.release 0) := by decide

theorem test_decode_refuses_unknown_opcode :
    decode 0x00000000 = .error .unknownOpcode ∧ decode 0x00000014 = .error .unknownOpcode ∧
      decode 0x000000FF = .error .unknownOpcode := by decide

theorem test_decode_refuses_reserved_bits :
    decode 0x02000002 = .error .reservedBits ∧ decode 0x80000008 = .error .reservedBits ∧
      decode 0x02000009 = .error .reservedBits := by decide

theorem test_decode_refuses_unused_fields :
    decode 0x00010002 = .error .unusedSB ∧ decode 0x00010003 = .error .unusedSB ∧
      decode 0x01000002 = .error .unusedVAL ∧ decode 0x01000009 = .error .unusedVAL := by decide

/-- The rows of R67 differ in `OPC`, and every mask keeps it: no word selects two rows (R68). -/
theorem test_rows_do_not_overlap :
    opcodeRows.Pairwise fun a b => a.pattern &&& 0xFF ≠ b.pattern &&& 0xFF := by decide

theorem test_table_word :
    decodeTableWord 32 0x00010009 = some (.bitAnd 0 1) ∧ decodeTableWord 32 0 = none ∧
      decodeTableWord 32 0x100000002 = some (.get 0) := by decide

theorem test_presented_word_runs :
    step (State.reset.withFetchWord 32 0x13) = exec (.length 0) (State.reset.withFetchWord 32 0x13) := rfl

/-! ## One step on a small block -/

/-- A block of `small`'s parameters. -/
def block (m : Memory) (inputs : List HostInput) : State :=
  { slots := m, maxBytes := 2, maxBatch := 8, inputs := inputs, responses := [] }

/-- A slot with one transaction presented, two slots that are not live beside it. -/
def one (v : Slot) (c : Command) : State := block [v, Slot.empty, Slot.empty] [.command c]

/-- A transaction without a stream. -/
def cmd (cw : Word32) (a0 a1 : Int) : Command := { cw := cw, a0 := u64 a0, a1 := u64 a1, din := [] }

/-- A transaction with positions. -/
def batch (cw : Word32) (ps : List Nat) : Command :=
  { cw := cw, a0 := 0, a1 := 0, din := ps.flatMap le64 }

/-- A transaction with an image. -/
def load (cw : Word32) (din : List Byte) : Command := { cw := cw, a0 := 0, a1 := 0, din := din }

/-- The next state of an outcome. -/
def next? : Result → Option State
  | .next t => some t
  | .fault _ => none
  | .refused _ => none

/-- The slots and the last response a step leaves. -/
def left? (r : Result) : Option (Memory × Option Response) :=
  (next? r).map fun t => (t.slots, t.lastResponse?)

/-- What a step leaves on `one v c`: the slot, and `(STATUS, RESULT, DOUT)`. -/
def answer? (v : Slot) (c : Command) : Option (Option Slot × Option (Byte × Word64 × List Byte)) :=
  (next? (step (one v c))).map fun t =>
    (t.slots[0]?, t.lastResponse?.map fun r => (r.status.code, r.result, r.dout))

/-- Positions 4 to 7 of 16 set: the example of R41. -/
def f0 : Slot := vector 16 [0xF0, 0x00]

-- R80's example, and R139's `CREATE v0, -1` on a live slot.
theorem test_create : answer? Slot.empty (cmd 0x00000001 16 0) =
    some (some (vector 16 [0x00, 0x00]), some (0, 0, [])) := by decide
theorem test_create_busy : answer? f0 (cmd 0x00000001 (-1) 0) = some (some f0, some (7, 0, [])) := by
  decide

-- R81's examples.
theorem test_get : answer? f0 (cmd 0x00000002 4 0) = some (some f0, some (0, 1, [])) := by decide
theorem test_get_end : answer? f0 (cmd 0x00000002 16 0) = some (some f0, some (2, 0, [])) := by decide

-- R82's examples.
theorem test_set : answer? (vector 10 [0x00, 0x00]) (cmd 0x01000003 9 0) =
    some (some (vector 10 [0x00, 0x02]), some (0, 0, [])) := by decide
theorem test_set_false : answer? (vector 10 [0x00, 0x02]) (cmd 0x00000003 9 0) =
    some (some (vector 10 [0x00, 0x00]), some (0, 0, [])) := by decide

-- R83's examples.
theorem test_resize_shrink : answer? (vector 16 [0xFF, 0xFF]) (cmd 0x00000004 4 0) =
    some (some (vector 4 [0x0F]), some (0, 0, [])) := by decide
theorem test_resize_grow : answer? (vector 4 [0x0F]) (cmd 0x00000004 16 0) =
    some (some (vector 16 [0x0F, 0x00]), some (0, 0, [])) := by decide

-- R90's and R91's examples.
theorem test_getBatch : answer? f0 (batch 0x00000005 [4, 0, 7, 4, 15]) =
    some (some f0, some (0, 5, [0x0D])) := by decide
theorem test_setBatch : answer? (vector 16 [0x00, 0x00]) (batch 0x01000006 [1, 9, 1]) =
    some (some (vector 16 [0x02, 0x02]), some (0, 0, [])) := by decide
theorem test_setBatch_all_or_nothing : answer? (vector 16 [0x00, 0x00]) (batch 0x01000006 [0, 16]) =
    some (some (vector 16 [0x00, 0x00]), some (2, 0, [])) := by decide

-- R92's and R93's examples.
theorem test_setRange : answer? (vector 16 [0x00, 0x00]) (cmd 0x01000008 4 8) =
    some (some f0, some (0, 0, [])) := by decide
theorem test_setRange_empty_at_end : answer? f0 (cmd 0x01000008 16 16) =
    some (some f0, some (0, 0, [])) := by decide
theorem test_getRange : answer? f0 (cmd 0x00000007 2 7) = some (some f0, some (0, 5, [0x1C])) := by
  decide
theorem test_getRange_whole : answer? f0 (cmd 0x00000007 0 16) =
    some (some f0, some (0, 16, [0xF0, 0x00])) := by decide

-- R94's to R97's examples and corner cases.
theorem test_findFirst : answer? f0 (cmd 0x0000000D 0 0) = some (some f0, some (0, 4, [])) := by decide
theorem test_findFirst_none : (answer? (vector 16 [0x00, 0x00]) (cmd 0x0000000D 0 0)).map Prod.snd =
    some (some (0, 0xFFFFFFFFFFFFFFFF, [])) := by decide
theorem test_countBits : answer? f0 (cmd 0x0000000E 0 0) = some (some f0, some (0, 4, [])) := by decide
theorem test_countBytes : (answer? (vector 9 [0x00, 0x00]) (cmd 0x0000000F 0 0)).map Prod.snd =
    some (some (0, 2, [])) := by decide
theorem test_length : (answer? (vector 5 [0x00]) (cmd 0x00000013 0 0)).map Prod.snd =
    some (some (0, 5, [])) := by decide

/-- The two vectors of R106's example, in slots 0 and 1. -/
def pair (c : Command) : State :=
  block [vector 12 [0xF0, 0x0A], vector 12 [0x3C, 0x06], Slot.empty] [.command c]

-- R106's to R109's examples.
theorem test_and : left? (step (pair (cmd 0x00010009 0 0))) =
    some ([vector 12 [0x30, 0x02], vector 12 [0x3C, 0x06], Slot.empty], some (okResponse 0 [])) := by
  decide
theorem test_or : left? (step (pair (cmd 0x0001000A 0 0))) =
    some ([vector 12 [0xFC, 0x0E], vector 12 [0x3C, 0x06], Slot.empty], some (okResponse 0 [])) := by
  decide
theorem test_xor : left? (step (pair (cmd 0x0001000B 0 0))) =
    some ([vector 12 [0xCC, 0x0C], vector 12 [0x3C, 0x06], Slot.empty], some (okResponse 0 [])) := by
  decide
theorem test_xor_self : answer? f0 (cmd 0x0000000B 0 0) =
    some (some (vector 16 [0x00, 0x00]), some (0, 0, [])) := by decide
theorem test_not : answer? (vector 12 [0xF0, 0x0A]) (cmd 0x0000000C 0 0) =
    some (some (vector 12 [0x0F, 0x05]), some (0, 0, [])) := by decide

-- R116's and R117's examples.
theorem test_serialize : answer? (vector 12 [0x0F, 0x05]) (cmd 0x00000010 0 0) =
    some (some (vector 12 [0x0F, 0x05]),
      some (0, 10, [0x0C, 0, 0, 0, 0, 0, 0, 0, 0x0F, 0x05])) := by decide
theorem test_deserialize : answer? Slot.empty (load 0x00000011 [5, 0, 0, 0, 0, 0, 0, 0, 0xFF]) =
    some (some (vector 5 [0x1F]), some (0, 0, [])) := by decide
theorem test_deserialize_short : answer? Slot.empty (load 0x00000011 [9, 0, 0, 0, 0, 0, 0, 0, 0xFF]) =
    some (some Slot.empty, some (5, 0, [])) := by decide

-- R127's example, and a second RELEASE.
theorem test_release : answer? f0 (cmd 0x00000012 0 0) = some (some Slot.empty, some (0, 0, [])) := by
  decide
theorem test_release_again : answer? Slot.empty (cmd 0x00000012 0 0) =
    some (some Slot.empty, some (0, 0, [])) := by decide

-- R139's examples: the guard before the bounds, decoding before the guard.
theorem test_guard_first : (answer? Slot.empty (cmd 0x00000002 (-1) 0)).map Prod.snd =
    some (some (4, 0, [])) := by decide
theorem test_decoding_first : (answer? Slot.empty (cmd 0x00000302 0 0)).map Prod.snd =
    some (some (6, 0, [])) := by decide

-- R155: a reset gives up the command in progress and empties the slots.
theorem test_reset_input :
    left? (step (block [f0, f0, f0] [.reset (some (cmd 0x00000012 0 0))])) =
      some ([Slot.empty, Slot.empty, Slot.empty], none) := by decide

/-! ## Witnesses: concrete states and operands that meet the hypotheses of the statements in
Certificates/Slice0/Obligations.lean, one theorem for a statement, each clause at a boundary -/

/-- The hypotheses the command statements share, of a slot and a transaction in `one`. -/
abbrev Fits (v : Slot) (c : Command) : Prop :=
  (one v c).Inv ∧ (one v c).Presents c ∧ (one v c).Holds 0 v

/-- From an outcome that is a next state with a decidable property. -/
theorem exists_next {r : Result} {P : State → Prop} [DecidablePred P]
    (h : (next? r).any (fun t => decide (P t)) = true) : ∃ t, r = .next t ∧ P t := by
  cases r with
  | next t => exact ⟨t, rfl, by simpa [next?] using h⟩
  | fault _ => simp [next?] at h
  | refused _ => simp [next?] at h

/-- Sixteen bits, none set: the whole capacity of a slot of `small`. -/
def z16 : Slot := vector 16 [0x00, 0x00]

/-- Twelve bits: a length that leaves padding. -/
def v12 : Slot := vector 12 [0xF0, 0x0A]

theorem witness_CreateMakesZeroVector :
    (Fits f0 (cmd 1 0 0) ∧ f0.live = true) ∧
    (Fits Slot.empty (cmd 1 (-1) 0) ∧ s64 (cmd 1 (-1) 0).a0 < 0) ∧
    (Fits Slot.empty (cmd 1 17 0) ∧ s64 (cmd 1 17 0).a0 > 8 * (small.maxBytes : Int)) ∧
    (Fits Slot.empty (cmd 1 0 0) ∧ s64 (cmd 1 0 0).a0 = 0) ∧
    (Fits Slot.empty (cmd 1 16 0) ∧ Slot.empty.live = false ∧
      s64 (cmd 1 16 0).a0 = 8 * (small.maxBytes : Int)) := by decide

theorem witness_GetReturnsTheBit :
    (Fits Slot.empty (cmd 2 0 0) ∧ Slot.empty.live = false) ∧
    (Fits f0 (cmd 2 (-1) 0) ∧ s64 (cmd 2 (-1) 0).a0 < 0) ∧
    (Fits f0 (cmd 2 16 0) ∧ s64 (cmd 2 16 0).a0 ≥ f0.len) ∧
    (Fits f0 (cmd 2 0 0) ∧ f0.live = true ∧ 0 ≤ s64 (cmd 2 0 0).a0) ∧
    (Fits f0 (cmd 2 15 0) ∧ f0.live = true ∧ s64 (cmd 2 15 0).a0 < f0.len) := by decide

theorem witness_SetWritesExactlyOneBit :
    (Fits Slot.empty (cmd 3 0 0) ∧ Slot.empty.live = false) ∧
    (Fits v12 (cmd 3 (-1) 0) ∧ s64 (cmd 3 (-1) 0).a0 < 0) ∧
    (Fits v12 (cmd 3 12 0) ∧ s64 (cmd 3 12 0).a0 ≥ v12.len) ∧
    (Fits v12 (cmd 3 0 0) ∧ v12.live = true ∧ 0 ≤ s64 (cmd 3 0 0).a0) ∧
    (Fits v12 (cmd 3 11 0) ∧ v12.live = true ∧ s64 (cmd 3 11 0).a0 < v12.len) := by decide

theorem witness_ResizeKeepsPrefixAndZeroesTheRest :
    (Fits Slot.empty (cmd 4 0 0) ∧ Slot.empty.live = false) ∧
    (Fits v12 (cmd 4 (-1) 0) ∧ s64 (cmd 4 (-1) 0).a0 < 0) ∧
    (Fits v12 (cmd 4 17 0) ∧ s64 (cmd 4 17 0).a0 > 8 * (small.maxBytes : Int)) ∧
    (Fits v12 (cmd 4 0 0) ∧ v12.live = true ∧ s64 (cmd 4 0 0).a0 = 0) ∧
    (Fits v12 (cmd 4 16 0) ∧ v12.live = true ∧
      s64 (cmd 4 16 0).a0 = 8 * (small.maxBytes : Int)) := by decide

/-- The hypotheses on the stream of a batch. -/
abbrev FitsBatch (v : Slot) (c : Command) : Prop :=
  Fits v c ∧ c.din.length % 8 = 0 ∧ c.din.length / 8 ≤ (one v c).maxBatch

theorem witness_GetBatchReturnsTheBits :
    (FitsBatch Slot.empty (batch 5 []) ∧ Slot.empty.live = false) ∧
    (FitsBatch f0 (batch 5 [0, 16]) ∧ f0.live = true ∧
      ∃ p ∈ (batch 5 [0, 16]).positions, p < 0 ∨ p ≥ f0.len) ∧
    (FitsBatch f0 (batch 5 []) ∧ f0.live = true ∧
      ∀ p ∈ (batch 5 []).positions, 0 ≤ p ∧ p < f0.len) ∧
    (FitsBatch f0 (batch 5 [15, 0, 4, 4, 7, 8, 3, 15]) ∧ f0.live = true ∧
      ∀ p ∈ (batch 5 [15, 0, 4, 4, 7, 8, 3, 15]).positions, 0 ≤ p ∧ p < f0.len) := by decide

theorem witness_SetBatchWritesAllOrNothing :
    (FitsBatch Slot.empty (batch 6 []) ∧ Slot.empty.live = false) ∧
    (FitsBatch v12 (batch 6 [0, 12]) ∧ v12.live = true ∧
      ∃ p ∈ (batch 6 [0, 12]).positions, p < 0 ∨ p ≥ v12.len) ∧
    (FitsBatch v12 (batch 6 []) ∧ v12.live = true ∧
      ∀ p ∈ (batch 6 []).positions, 0 ≤ p ∧ p < v12.len) ∧
    (FitsBatch v12 (batch 6 [11, 0, 0]) ∧ v12.live = true ∧
      ∀ p ∈ (batch 6 [11, 0, 0]).positions, 0 ≤ p ∧ p < v12.len) := by decide

/-- A range that the rules of SETRANGE and GETRANGE turn away, or accept. -/
abbrev InRange (v : Slot) (c : Command) : Prop :=
  0 ≤ s64 c.a0 ∧ s64 c.a0 ≤ s64 c.a1 ∧ s64 c.a1 ≤ v.len

theorem witness_SetRangeWritesExactlyTheRange :
    (Fits Slot.empty (cmd 8 0 0) ∧ Slot.empty.live = false) ∧
    (Fits v12 (cmd 8 (-1) 0) ∧ ¬ InRange v12 (cmd 8 (-1) 0)) ∧
    (Fits v12 (cmd 8 8 4) ∧ ¬ InRange v12 (cmd 8 8 4)) ∧
    (Fits v12 (cmd 8 0 13) ∧ v12.live = true ∧ ¬ InRange v12 (cmd 8 0 13)) ∧
    (Fits v12 (cmd 8 12 12) ∧ v12.live = true ∧ InRange v12 (cmd 8 12 12)) ∧
    (Fits v12 (cmd 8 0 12) ∧ v12.live = true ∧ InRange v12 (cmd 8 0 12)) := by
  refine ⟨?_, ?_, ?_, ?_, ?_, ?_⟩ <;> decide

theorem witness_GetRangeReturnsTheRange :
    (Fits Slot.empty (cmd 7 0 0) ∧ Slot.empty.live = false) ∧
    (Fits f0 (cmd 7 (-1) 0) ∧ ¬ InRange f0 (cmd 7 (-1) 0)) ∧
    (Fits f0 (cmd 7 8 4) ∧ ¬ InRange f0 (cmd 7 8 4)) ∧
    (Fits f0 (cmd 7 0 17) ∧ f0.live = true ∧ ¬ InRange f0 (cmd 7 0 17)) ∧
    (Fits f0 (cmd 7 16 16) ∧ f0.live = true ∧ InRange f0 (cmd 7 16 16)) ∧
    (Fits f0 (cmd 7 0 16) ∧ f0.live = true ∧ InRange f0 (cmd 7 0 16)) := by
  refine ⟨?_, ?_, ?_, ?_, ?_, ?_⟩ <;> decide

theorem witness_FindFirstReturnsTheLowestSetBit :
    (Fits Slot.empty (cmd 0x0D 0 0) ∧ Slot.empty.live = false) ∧
    (Fits f0 (cmd 0x0D 0 0) ∧ f0.live = true ∧ 4 < f0.len ∧ f0.bit 4 = true ∧
      ∀ j < 4, f0.bit j = false) ∧
    (Fits (vector 12 [0x00, 0x08]) (cmd 0x0D 0 0) ∧ (vector 12 [0x00, 0x08]).bit 11 = true ∧
      ∀ j < 11, (vector 12 [0x00, 0x08]).bit j = false) ∧
    (Fits z16 (cmd 0x0D 0 0) ∧ z16.live = true ∧ ∀ k < z16.len, z16.bit k = false) ∧
    (Fits (vector 0 []) (cmd 0x0D 0 0) ∧ (vector 0 []).live = true) := by decide

theorem witness_CountBitsReturnsThePopulation :
    (Fits Slot.empty (cmd 0x0E 0 0) ∧ Slot.empty.live = false) ∧
    (Fits (vector 0 []) (cmd 0x0E 0 0) ∧ (vector 0 []).live = true) ∧
    (Fits (vector 16 [0xFF, 0xFF]) (cmd 0x0E 0 0) ∧ (vector 16 [0xFF, 0xFF]).live = true) := by decide

theorem witness_CountBytesReturnsTheStorageSize :
    (Fits Slot.empty (cmd 0x0F 0 0) ∧ Slot.empty.live = false) ∧
    (Fits (vector 0 []) (cmd 0x0F 0 0) ∧ (vector 0 []).live = true) ∧
    (Fits v12 (cmd 0x0F 0 0) ∧ v12.live = true) := by decide

theorem witness_LengthReturnsTheBitCount :
    (Fits Slot.empty (cmd 0x13 0 0) ∧ Slot.empty.live = false) ∧
    (Fits (vector 0 []) (cmd 0x13 0 0) ∧ (vector 0 []).live = true) ∧
    (Fits f0 (cmd 0x13 0 0) ∧ f0.live = true) := by decide

/-- Two slots and a transaction. -/
def two (a b : Slot) (c : Command) : State := block [a, b, Slot.empty] [.command c]

/-- The hypotheses of the statements about AND, OR and XOR, of slots 0 and `sb`. -/
abbrev FitsPair (a b : Slot) (c : Command) (sb : SlotIndex) : Prop :=
  (two a b c).Inv ∧ (two a b c).Presents c ∧ (two a b c).Holds 0 a ∧ (two a b c).Holds sb b ∧
    c.din = []

theorem witness_BinaryAlgebraIsPositionwise :
    (FitsPair Slot.empty v12 (cmd 9 0 0) 1 ∧ Slot.empty.live = false) ∧
    (FitsPair v12 Slot.empty (cmd 9 0 0) 1 ∧ Slot.empty.live = false) ∧
    (FitsPair v12 f0 (cmd 9 0 0) 1 ∧ v12.live = true ∧ f0.live = true ∧ v12.len ≠ f0.len) ∧
    (FitsPair f0 z16 (cmd 9 0 0) 1 ∧ f0.live = true ∧ z16.live = true ∧ f0.len = z16.len) ∧
    (FitsPair v12 v12 (cmd 9 0 0) 0 ∧ v12.live = true) := by
  refine ⟨?_, ?_, ?_, ?_, ?_⟩ <;> decide

theorem witness_BinaryAlgebra_operations :
    (Instr.bitAnd 0 1, and) ∈
      [(Instr.bitAnd 0 1, and), (Instr.bitOr 0 1, or), (Instr.bitXor 0 1, xor)] ∧
    (Instr.bitXor 0 0, xor) ∈
      [(Instr.bitAnd 0 0, and), (Instr.bitOr 0 0, or), (Instr.bitXor 0 0, xor)] := by simp

theorem witness_NotInvertsEveryBit :
    (Fits Slot.empty (cmd 0x0C 0 0) ∧ Slot.empty.live = false) ∧
    (Fits (vector 0 []) (cmd 0x0C 0 0) ∧ (vector 0 []).live = true) ∧
    (Fits v12 (cmd 0x0C 0 0) ∧ v12.live = true) := by decide

theorem witness_BinaryAlgebraCommutes :
    (two v12 v12 (cmd 9 0 0)).Inv ∧ (two v12 v12 (cmd 9 0 0)).Presents (cmd 9 0 0) ∧
    (∃ t, exec (.bitXor 0 1) (two v12 v12 (cmd 9 0 0)) = .next t ∧
      t.lastResponse? = some (okResponse 0 [])) ∧
    ∃ u, exec (.bitXor 1 0) (two v12 v12 (cmd 9 0 0)) = .next u ∧
      u.lastResponse? = some (okResponse 0 []) :=
  ⟨by decide, by decide, exists_next (by decide), exists_next (by decide)⟩

/-- Two slots and two transactions in a row. -/
def twice (a b : Slot) (c d : Command) : State := block [a, b, Slot.empty] [.command c, .command d]

theorem witness_InvolutionsRestoreTheReceiver :
    (twice v12 v12 (cmd 0 0 0) (cmd 0 0 0)).Inv ∧ (0 : SlotIndex) ≠ 1 ∧
    (∃ t, exec (.bitNot 0) (twice v12 v12 (cmd 0 0 0) (cmd 0 0 0)) = .next t ∧
      t.lastResponse? = some (okResponse 0 []) ∧ t.Presents (cmd 0 0 0) ∧ (cmd 0 0 0).din = []) ∧
    ∃ t, exec (.bitXor 0 1) (twice v12 v12 (cmd 0 0 0) (cmd 0 0 0)) = .next t ∧
      t.lastResponse? = some (okResponse 0 []) ∧ t.Presents (cmd 0 0 0) ∧ (cmd 0 0 0).din = [] :=
  ⟨by decide, by decide, exists_next (by decide), exists_next (by decide)⟩

theorem witness_SerializeEmitsTheImage :
    (Fits Slot.empty (cmd 0x10 0 0) ∧ Slot.empty.live = false) ∧
    (Fits (vector 0 []) (cmd 0x10 0 0) ∧ (vector 0 []).live = true) ∧
    (Fits v12 (cmd 0x10 0 0) ∧ v12.live = true) := by decide

/-- The prefix of an image as R117 reads it. -/
abbrev Prefix (n : Nat) (d : List Byte) : Prop :=
  n = ∑ k ∈ Finset.range 8, (d.getD k 0).toNat * 2 ^ (8 * k)

theorem witness_DeserializeBuildsTheVector :
    (Fits f0 (load 0x11 (le64 0)) ∧ Prefix 0 (le64 0) ∧ f0.live = true) ∧
    (Fits Slot.empty (load 0x11 [5]) ∧ Prefix 5 [5] ∧ [5].length < 8) ∧
    (Fits Slot.empty (load 0x11 (le64 17)) ∧ Prefix 17 (le64 17) ∧ 17 > 8 * small.maxBytes) ∧
    (Fits Slot.empty (load 0x11 (le64 9 ++ [1])) ∧ Prefix 9 (le64 9 ++ [1]) ∧
      (le64 9 ++ [1]).length - 8 ≠ (9 + 7) / 8) ∧
    (Fits Slot.empty (load 0x11 (le64 0)) ∧ Prefix 0 (le64 0) ∧ (le64 0).length - 8 = (0 + 7) / 8) ∧
    (Fits Slot.empty (load 0x11 (le64 16 ++ [1, 2])) ∧ Prefix 16 (le64 16 ++ [1, 2]) ∧
      Slot.empty.live = false ∧ 8 ≤ (le64 16 ++ [1, 2]).length ∧ 16 ≤ 8 * small.maxBytes ∧
      (le64 16 ++ [1, 2]).length - 8 = (16 + 7) / 8) := by
  refine ⟨?_, ?_, ?_, ?_, ?_, ?_⟩ <;> decide

theorem witness_ImagesRoundTrip_out :
    (twice v12 Slot.empty (cmd 0x10 0 0) (load 0x111 (image v12))).Inv ∧
    (twice v12 Slot.empty (cmd 0x10 0 0) (load 0x111 (image v12))).Holds 0 v12 ∧
    (twice v12 Slot.empty (cmd 0x10 0 0) (load 0x111 (image v12))).Holds 1 Slot.empty ∧
    v12.live = true ∧ Slot.empty.live = false ∧
    ∃ t, exec (.serialize 0) (twice v12 Slot.empty (cmd 0x10 0 0) (load 0x111 (image v12))) = .next t ∧
      t.lastResponse? = some (okResponse 10 (image v12)) ∧
      t.Presents (load 0x111 (image v12)) :=
  ⟨by decide, by decide, by decide, by decide, by decide, exists_next (by decide)⟩

theorem witness_ImagesRoundTrip_in :
    (twice Slot.empty v12 (load 0x11 (le64 5 ++ [0xFF])) (cmd 0x10 0 0)).Inv ∧
    (twice Slot.empty v12 (load 0x11 (le64 5 ++ [0xFF])) (cmd 0x10 0 0)).Presents
      (load 0x11 (le64 5 ++ [0xFF])) ∧
    ∃ t, exec (.deserialize 0) (twice Slot.empty v12 (load 0x11 (le64 5 ++ [0xFF])) (cmd 0x10 0 0)) =
        .next t ∧ t.lastResponse? = some (okResponse 0 []) ∧ t.Presents (cmd 0x10 0 0) ∧
        (cmd 0x10 0 0).din = [] :=
  ⟨by decide, by decide, exists_next (by decide)⟩

theorem witness_ReleaseEmptiesTheSlot :
    Fits f0 (cmd 0x12 0 0) ∧ (Fits Slot.empty (cmd 0x12 0 0) ∧ Slot.empty.live = false) := by decide

theorem witness_LiveChangesOnlyByLifecycleCommands :
    (∃ t, exec (.create 0) (one Slot.empty (cmd 1 0 0)) = .next t ∧
      t.slots[0]? = some (vector 0 []) ∧ t.lastResponse? = some (okResponse 0 []) ∧
      Slot.empty.live ≠ (vector 0 []).live) ∧
    (∃ t, exec (.deserialize 0) (one Slot.empty (load 0x11 (le64 0))) = .next t ∧
      t.slots[0]? = some (vector 0 []) ∧ t.lastResponse? = some (okResponse 0 [])) ∧
    (∃ t, exec (.release 0) (one f0 (cmd 0x12 0 0)) = .next t ∧
      t.slots[0]? = some Slot.empty ∧ t.lastResponse? = some (okResponse 0 []) ∧
      f0.live ≠ Slot.empty.live) ∧
    (one f0 (cmd 0x12 0 0)).slots[0]? = some f0 :=
  ⟨exists_next (by decide), exists_next (by decide), exists_next (by decide), by decide⟩

theorem witness_LenChangesOnlyByFourCommands :
    (one v12 (cmd 4 5 0)).slots[0]? = some v12 ∧ v12.len ≠ (vector 5 [0x10]).len ∧
    ∃ t, exec (.resize 0) (one v12 (cmd 4 5 0)) = .next t ∧ t.slots[0]? = some (vector 5 [0x10]) :=
  ⟨by decide, by decide, exists_next (by decide)⟩

theorem witness_LifecycleIsCheckedFirst :
    (Fits Slot.empty (cmd 2 (-1) 0) ∧ (Instr.get 0).legal small 0 = true ∧
      (Instr.get 0).isGuarded = true) ∧
    (FitsPair v12 Slot.empty (cmd 9 0 0) 1 ∧ (Instr.bitAnd 0 1).legal small 0 = true ∧
      (Instr.bitAnd 0 1).isGuarded = true ∧ (Instr.bitAnd 0 1).operand? = some 1) ∧
    (Fits f0 (cmd 1 (-1) 0) ∧ (Instr.create 0).legal small 0 = true) ∧
    (Fits f0 (load 0x11 []) ∧ (Instr.deserialize 0).legal small 0 = true) ∧
    ((one f0 (cmd 2 0 0)).params = small ∧ (two v12 Slot.empty (cmd 9 0 0)).params = small) := by decide

theorem witness_LifecycleIsCheckedFirst_unguarded :
    (Instr.release 0).isGuarded = false ∧ (Instr.release 0).legal small 0 = true ∧
    Fits Slot.empty (cmd 0x12 0 0) ∧
    ∃ t, exec (.release 0) (one Slot.empty (cmd 0x12 0 0)) = .next t ∧
      t.lastResponse? = some (okResponse 0 []) :=
  ⟨by decide, by decide, by decide, exists_next (by decide)⟩

theorem witness_ErrorsChangeNothing :
    (one f0 (cmd 2 16 0)).Presents (cmd 2 16 0) ∧
    ∃ t, step (one f0 (cmd 2 16 0)) = .next t ∧
      t.lastResponse? = some (errorResponse .outOfRange) ∧
      (errorResponse .outOfRange).status ≠ .ok :=
  ⟨by decide, exists_next (by decide)⟩

theorem witness_ErrorsAreThoseOfTheTable :
    ErrorKind.format ∈ (Instr.deserialize 0).errors ∧
    ∃ t, exec (.deserialize 0) (one Slot.empty (load 0x11 [])) = .next t ∧
      t.lastResponse? = some (errorResponse .format) :=
  ⟨by decide, exists_next (by decide)⟩

theorem witness_IllegalCommandExactlyWhenNotLegal :
    (¬ LegalTransaction small (cmd 0x14 0 0) ∧ ¬ LegalTransaction small (cmd 0x302 0 0) ∧
      ¬ LegalTransaction small (cmd 0x30009 0 0) ∧ ¬ LegalTransaction small (load 2 [0]) ∧
      ¬ LegalTransaction small (load 5 [0]) ∧
      ¬ LegalTransaction small (batch 5 [0, 0, 0, 0, 0, 0, 0, 0, 0])) ∧
    (LegalTransaction small (cmd 0x202 0 0) ∧ LegalTransaction small (cmd 0x20209 0 0) ∧
      LegalTransaction small (batch 5 [0, 0, 0, 0, 0, 0, 0, 0]) ∧
      LegalTransaction small (load 0x11 [0])) ∧
    (one f0 (cmd 0x14 0 0)).params = small ∧
    (one f0 (cmd 0x14 0 0)).Presents (cmd 0x14 0 0) := by
  refine ⟨⟨?_, ?_, ?_, ?_, ?_, ?_⟩, ⟨?_, ?_, ?_, ?_⟩, ?_, ?_⟩ <;> decide

theorem witness_IllegalCommandExactlyWhenNotLegal_answered :
    ∃ t, step (one f0 (cmd 0x02 4 0)) = .next t ∧ t.lastResponse? = some (okResponse 1 []) :=
  exists_next (by decide)

theorem witness_StatusCodesAreTheTable : (Status.error .slotBusy).code = 7 := by decide

theorem witness_ReadsAndFailuresRepeat :
    (∃ t, exec (.get 0) (twice f0 v12 (cmd 2 4 0) (cmd 2 4 0)) = .next t ∧
      t.lastResponse? = some (okResponse 1 []) ∧ (Instr.get 0).isRead = true ∧
      t.Presents (cmd 2 4 0)) ∧
    ∃ t, exec (.set 0 true) (twice f0 v12 (cmd 3 16 0) (cmd 3 16 0)) = .next t ∧
      t.lastResponse? = some (errorResponse .outOfRange) ∧ t.Presents (cmd 3 16 0) :=
  ⟨exists_next (by decide), exists_next (by decide)⟩

theorem witness_DecoderAgreesWithTheOpcodeMap :
    OpcodeRow.mk "SET" 0xFEFF00FF 0x00000003 ∈ opcodeRows ∧
      (0x0100FF03 : Word32) &&& 0xFEFF00FF = 0x00000003 := by decide

theorem witness_ReservedEncodingsAreIllegal :
    (cmd 0x00 0 0).cw.toNat % 256 = 0 ∧ (cmd 0x14 0 0).cw.toNat % 256 ≥ 0x14 ∧
      (cmd 0x02000002 0 0).cw.toNat / 2 ^ 25 ≠ 0 ∧
      ((cmd 0x00010002 0 0).cw.toNat / 2 ^ 16 % 256 ≠ 0 ∧
        (cmd 0x00010002 0 0).cw.toNat % 256 ∉ [0x09, 0x0A, 0x0B]) ∧
      ((cmd 0x01000009 0 0).cw.toNat / 2 ^ 24 % 2 = 1 ∧
        (cmd 0x01000009 0 0).cw.toNat % 256 ∉ [0x03, 0x06, 0x08]) ∧
      (one f0 (cmd 0x14 0 0)).Presents (cmd 0x14 0 0) := by decide

theorem witness_PositionStreamsReadBack :
    (∀ p ∈ [-2 ^ 63, -1, 0, 2 ^ 63 - 1], (-2 ^ 63 : Int) ≤ p ∧ p < 2 ^ 63) ∧
      (load 5 ([-2 ^ 63, -1, 0, 2 ^ 63 - 1].flatMap fun p => le64 (u64 p).toNat)).din.length = 32 := by
  decide

theorem witness_IgnoredOperandsHaveNoEffect :
    (cmd 2 4 9).cw = (cmd 2 4 0).cw ∧ (cmd 2 4 9).din = (cmd 2 4 0).din ∧
    (cmd 2 4 9).a0 = (cmd 2 4 0).a0 ∧ (Instr.get 0).readsA1 = false ∧
    (one f0 (cmd 2 4 0)).inputs = [.command (cmd 2 4 0)] ∧
    ∃ t, exec (.get 0) (one f0 (cmd 2 4 0)) = .next t ∧ t.inputs = [] :=
  ⟨by decide, by decide, by decide, by decide, by decide, exists_next (by decide)⟩

theorem witness_ResetMeetsTheInvariant :
    (Params.mk 2 1 0).Legal ∧ (Params.mk 256 (2 ^ 60 - 1) (2 ^ 63 - 1)).Legal := by decide

theorem witness_StepKeepsTheInvariant :
    (one f0 (cmd 1 0 0)).Inv ∧ (∃ t, step (one f0 (cmd 0x04 5 0)) = .next t ∧ t.Inv) ∧
      ∃ t, step (block [f0, v12] [.reset none]) = .next t ∧ t.Inv :=
  ⟨by decide, exists_next (by decide), exists_next (by decide)⟩

theorem witness_InvariantIsSizeAndPadding :
    (one v12 (cmd 0 0 0)).Inv ∧ (one v12 (cmd 0 0 0)).slots[0]? = some v12 ∧ v12.live = true := by decide

theorem witness_LiveSlotsAreSequencesOfBools :
    Slot.wf 2 v12 = true ∧ v12.live = true ∧ v12.bits.length ≤ 8 * 2 := by decide

theorem witness_OtherSlotsAreUntouched :
    1 ≠ (Instr.bitAnd 0 1).receiver.toNat ∧
    ∃ t, exec (.bitAnd 0 1) (two v12 v12 (cmd 9 0 0)) = .next t ∧ t.slots[1]? = some v12 :=
  ⟨by decide, exists_next (by decide)⟩

theorem witness_UnnamedSlotsHaveNoInfluence :
    (block [v12, v12, f0] [.command (cmd 9 0 0)]).params = (two v12 v12 (cmd 9 0 0)).params ∧
    (block [v12, v12, f0] [.command (cmd 9 0 0)]).Presents (cmd 9 0 0) ∧
    (block [v12, v12, f0] [.command (cmd 9 0 0)]).slots ≠ (two v12 v12 (cmd 9 0 0)).slots ∧
    (∃ t, exec (.bitAnd 0 1) (block [v12, v12, f0] [.command (cmd 9 0 0)]) = .next t ∧
      t.slots[2]? = some f0) ∧
    ∃ t, exec (.bitAnd 0 1) (two v12 v12 (cmd 9 0 0)) = .next t ∧ t.slots[2]? = some Slot.empty :=
  ⟨by decide, by decide, by decide, exists_next (by decide), exists_next (by decide)⟩

theorem witness_PastResponsesHaveNoInfluence :
    ∃ t, step (one f0 (cmd 2 4 0)) = .next t ∧ t.responses = [okResponse 1 []] :=
  exists_next (by decide)

theorem witness_ParametersNeverChange :
    ∃ t, step (one f0 (cmd 2 4 0)) = .next t ∧ t.params = small := exists_next (by decide)

theorem witness_ResetInputEmptiesEverySlot :
    (block [f0, v12] [.reset none]).inputs = .reset none :: [] ∧
      (block [f0, v12] [.reset (some (cmd 2 0 0))]).inputs = .reset (some (cmd 2 0 0)) :: [] := by decide

theorem witness_StepRunsTheDecodedCommand :
    (one f0 (cmd 0x0D 0 0)).Presents (cmd 0x0D 0 0) ∧
      decode (cmd 0x0D 0 0).cw = .ok (.findFirst 0) := by decide

theorem witness_IdleHoldsTheState : (block [f0, v12] []).inputs = [] := by decide

theorem witness_EveryTransactionIsAnswered :
    (one f0 (cmd 0xFFFFFFFF 0 0)).Inv ∧
      (one f0 (cmd 0xFFFFFFFF 0 0)).Presents (cmd 0xFFFFFFFF 0 0) := by decide

theorem witness_HostScriptsRunToTheEnd :
    (block [f0, v12] [.command (cmd 2 0 0), .reset none, .command (cmd 1 16 0)]).Inv := by decide

theorem witness_ShrinkThenGrowReadsZeros :
    (twice f0 v12 (cmd 4 5 0) (cmd 4 16 0)).Inv ∧
    (twice f0 v12 (cmd 4 5 0) (cmd 4 16 0)).Holds 0 f0 ∧ f0.live = true ∧
    ∃ t, exec (.resize 0) (twice f0 v12 (cmd 4 5 0) (cmd 4 16 0)) = .next t ∧
      (t.Presents (cmd 4 16 0) ∧ t.lastResponse? = some (okResponse 0 []) ∧
        (next? (exec (.resize 0) t)).map (fun u => (u.slots[0]?, u.lastResponse?)) =
          some (some (vector 16 [0x10, 0x00]), some (okResponse 0 []))) :=
  ⟨by decide, by decide, by decide, exists_next (by decide)⟩

theorem witness_CountAfterFillIsTheLength :
    (twice v12 f0 (cmd 8 0 12) (cmd 0x0E 0 0)).Inv ∧
    (twice v12 f0 (cmd 8 0 12) (cmd 0x0E 0 0)).Holds 0 v12 ∧ v12.live = true ∧
    s64 (cmd 8 0 12).a0 = 0 ∧ s64 (cmd 8 0 12).a1 = v12.len ∧
    ∃ t, exec (.setRange 0 true) (twice v12 f0 (cmd 8 0 12) (cmd 0x0E 0 0)) = .next t ∧
      t.Presents (cmd 0x0E 0 0) :=
  ⟨by decide, by decide, by decide, by decide, by decide, exists_next (by decide)⟩

theorem witness_RepeatedWritesChangeNothingMore :
    (twice v12 v12 (cmd 4 5 0) (cmd 4 5 0)).Inv ∧
    (∃ t, exec (.resize 0) (twice v12 v12 (cmd 4 5 0) (cmd 4 5 0)) = .next t ∧
      t.Presents (cmd 4 5 0) ∧ t.lastResponse? = some (okResponse 0 [])) ∧
    ∃ t, exec (.bitOr 0 1) (twice v12 v12 (cmd 4 5 0) (cmd 4 5 0)) = .next t ∧
      t.Presents (cmd 4 5 0) ∧ t.lastResponse? = some (okResponse 0 []) :=
  ⟨by decide, exists_next (by decide), exists_next (by decide)⟩

end Sys2Proof.Tests
end

section
/-! PROOFS. The scope of the model (00_scope.md): what every step keeps, that no meaning stops on a state that meets
the invariant, and that every script of host inputs runs to its end. -/

namespace Sys2Proof.Machine

variable {s t : State} {c : Command} {i : Instr} {v : Slot} {sa sb : SlotIndex} {val : Bool}

/-! ## What a reset and a command that answers keep -/

theorem applyReset_params (s : State) : (applyReset s).params = s.params := by
  simp [State.params]

/-- The frame of a command that answers: it consumes its transaction, gives one response (R10, R26), and
changes at most the slot file, whose size (R29) and canonical form (R20 to R24) it keeps. -/
theorem Did.frame (h : Did i s t) : ∃ m r, t = s.afterTransaction m r ∧
    m.length = s.slots.length ∧
    (Memory.wf s.maxBytes s.slots = true → Memory.wf s.maxBytes m = true) := by
  cases h with
  | raised e he ht => exact ⟨_, _, ht, rfl, id⟩
  | returned x q hr ht => exact ⟨_, _, ht, rfl, id⟩
  | wrote v w hr hv hw ht =>
    exact ⟨_, _, ht, List.length_set, fun hm => Memory.wf_set hm (hw (Memory.wf_get hm hv)) _⟩

/-! ## What every step keeps -/

theorem step_keeps_params (h : step s = .next t) : t.params = s.params := by
  obtain ⟨-, rfl⟩ | ⟨_, _, -, rfl⟩ | ⟨_, _, -, -, rfl⟩ | ⟨c, i, -, -, he⟩ := step_cases h
  · rfl
  · exact applyReset_params s
  · rfl
  · obtain ⟨m, r, rfl, hlen, -⟩ := (exec_did he).frame
    simp [State.params, hlen]

theorem step_keeps_wf (h : step s = .next t) (hm : Memory.wf s.maxBytes s.slots = true) :
    Memory.wf t.maxBytes t.slots = true := by
  obtain ⟨-, rfl⟩ | ⟨_, _, -, rfl⟩ | ⟨_, _, -, -, rfl⟩ | ⟨c, i, -, -, he⟩ := step_cases h
  · exact hm
  · exact Memory.wf_emptied s.slots
  · exact hm
  · obtain ⟨m, r, rfl, -, hwf⟩ := (exec_did he).frame
    exact hwf hm

theorem step_keeps_Inv (h : step s = .next t) (hi : s.Inv) : t.Inv := by
  obtain ⟨hp, hm⟩ := hi
  exact ⟨step_keeps_params h ▸ hp, step_keeps_wf h hm⟩

/-! ## A step, given what stands at the head of the host's inputs -/

theorem step_of_decode_ok (h : s.Presents c) (hd : decode c.cw = .ok i) : step s = exec i s := by
  obtain ⟨rest, h⟩ := presents_inputs h
  simp [step, nextWork, h, hd]

theorem step_of_reset {abandoned : Option Command} {rest : List HostInput}
    (h : s.inputs = .reset abandoned :: rest) : step s = .next (applyReset s) := by
  simp [step, nextWork, h]

/-! ## The shapes of a command's pseudocode answer, if what follows them does -/

/-- The outcome is a next state: neither a fault nor a refusal. -/
def Answered (r : Result) : Prop := ∃ t, r = .next t

theorem answered_next (t : State) : Answered (.next t) := ⟨t, rfl⟩

theorem require_answered {p : Prop} [Decidable p] {e : ErrorKind} {k : Result}
    (h : p → Answered k) : Answered (require p e s k) := by
  by_cases hp : p
  · rw [require_pos hp]; exact h hp
  · rw [require_neg hp]; exact answered_next _

/-- An access that R14 defines does not stop the command. -/
theorem access_answered {α : Type} {x : Option α} {k : α → Result} (hx : ∃ y, x = some y)
    (hk : ∀ y, Answered (k y)) : Answered (access x k) := by
  obtain ⟨y, rfl⟩ := hx
  exact hk y

theorem onSlot_answered {k : Slot → Result} (h : ∀ v, s.Holds sa v → Answered (k v)) :
    Answered (onSlot s sa k) := by
  cases hv : s.slots[sa.toNat]? with
  | none => rw [onSlot_outside hv]; exact answered_next _
  | some v => rw [onSlot_of_holds hv]; exact h v hv

/-- A guarded command answers if its own part does on every live slot of canonical form. -/
theorem guarded_answered {din : Command → Prop} [∀ c, Decidable (din c)]
    {k : Command → Slot → Result} (hi : s.Inv) (hc : s.Presents c)
    (h : ∀ v, v.live = true → Slot.wf s.maxBytes v = true → Answered (k c v)) :
    Answered (guarded din sa s k) := by
  unfold guarded
  rw [onCommand_of_presents hc]
  exact onSlot_answered fun v hv => require_answered fun _ => require_answered fun hl =>
    h v hl (Memory.wf_get hi.2 hv)

/-- CREATE or DESERIALIZE answers if its own part does. -/
theorem vacant_answered {din : Command → Prop} [∀ c, Decidable (din c)] {k : Command → Result}
    (hc : s.Presents c) (h : Answered (k c)) : Answered (vacant din sa s k) := by
  unfold vacant
  rw [onCommand_of_presents hc]
  exact onSlot_answered fun _ _ => require_answered fun _ => require_answered fun _ => h

/-- AND, OR or XOR answers if its own part does on any two live slots of canonical form. -/
theorem guardedPair_answered {k : Slot → Slot → Result} (hi : s.Inv) (hc : s.Presents c)
    (h : ∀ a b, a.live = true → b.live = true → Slot.wf s.maxBytes a = true →
      Slot.wf s.maxBytes b = true → Answered (k a b)) :
    Answered (guardedPair sa sb s k) := by
  unfold guardedPair
  rw [onCommand_of_presents hc]
  exact onSlot_answered fun a ha => onSlot_answered fun b hb => require_answered fun _ =>
    require_answered fun hl =>
      h a b hl.1 hl.2 (Memory.wf_get hi.2 ha) (Memory.wf_get hi.2 hb)

/-! ## The accesses of a command that passed its checks are defined (R14, R23) -/

theorem readBits_defined (hl : v.live = true) (hw : Slot.wf s.maxBytes v = true) {is : List Nat}
    (h : ∀ i ∈ is, i < v.len) : ∃ q, readBits v.st is = some q :=
  ⟨_, readBits_spec fun i hi => wf_covers hw hl (h i hi)⟩

theorem writeBits_defined (hl : v.live = true) (hw : Slot.wf s.maxBytes v = true) {is : List Nat}
    (h : ∀ i ∈ is, i < v.len) : ∃ st, writeBits val v.st is = some st := by
  obtain ⟨st, hst, -⟩ := writeBits_spec val fun i hi => wf_covers hw hl (h i hi)
  exact ⟨st, hst⟩

theorem PosOk.toNat_lt {n : Nat} {p : Int} (h : PosOk n p) : p.toNat < n := by
  obtain ⟨h0, h1⟩ := h
  omega

theorem batch_lt_of_posOk {n : Nat} {ps : List Int} (h : ∀ p ∈ ps, PosOk n p) :
    ∀ i ∈ ps.map Int.toNat, i < n := by
  intro i hi
  obtain ⟨p, hp, rfl⟩ := List.mem_map.1 hi
  exact PosOk.toNat_lt (h p hp)

theorem range_lt_of_rangeOk {n : Nat} {lo hi : Int} (h : RangeOk n lo hi) :
    ∀ i ∈ rangePositions lo.toNat hi.toNat, i < n := by
  intro i hm
  have := mem_rangePositions.1 hm
  obtain ⟨h0, h1, h2⟩ := h
  omega

/-- The positions FINDFIRST and COUNTBITS scan. -/
theorem scan_lt (n : Nat) : ∀ i ∈ List.range n, i < n := fun _ => List.mem_range.1

/-! ## Every command answers -/

theorem execCreate_answered (hc : s.Presents c) : Answered (execCreate sa s) :=
  vacant_answered hc (require_answered fun _ => answered_next _)

theorem execDeserialize_answered (hc : s.Presents c) : Answered (execDeserialize sa s) :=
  vacant_answered hc <| require_answered fun _ => require_answered fun _ =>
    require_answered fun _ => answered_next _

theorem execRelease_answered (hc : s.Presents c) : Answered (execRelease sa s) := by
  unfold execRelease
  rw [onCommand_of_presents hc]
  exact onSlot_answered fun _ _ => require_answered fun _ => answered_next _

section Commands

variable (hi : s.Inv) (hc : s.Presents c)
include hi hc

theorem execGet_answered : Answered (execGet sa s) :=
  guarded_answered hi hc fun _ hl hw => require_answered fun hp =>
    access_answered ⟨_, readBit_spec (wf_covers hw hl (PosOk.toNat_lt hp))⟩ fun _ => answered_next _

theorem execSet_answered : Answered (execSet sa val s) := by
  refine guarded_answered hi hc fun v hl hw => require_answered fun hp => ?_
  obtain ⟨st, hst, -⟩ := writeBit_spec val (wf_covers hw hl (PosOk.toNat_lt hp))
  exact access_answered ⟨st, hst⟩ fun _ => answered_next _

theorem execResize_answered : Answered (execResize sa s) :=
  guarded_answered hi hc fun _ _ _ => require_answered fun _ => answered_next _

theorem execGetBatch_answered : Answered (execGetBatch sa s) :=
  guarded_answered hi hc fun _ hl hw => require_answered fun hp =>
    access_answered (readBits_defined hl hw (batch_lt_of_posOk hp)) fun _ => answered_next _

theorem execSetBatch_answered : Answered (execSetBatch sa val s) :=
  guarded_answered hi hc fun _ hl hw => require_answered fun hp =>
    access_answered (writeBits_defined hl hw (batch_lt_of_posOk hp)) fun _ => answered_next _

theorem execGetRange_answered : Answered (execGetRange sa s) :=
  guarded_answered hi hc fun _ hl hw => require_answered fun hr =>
    access_answered (readBits_defined hl hw (range_lt_of_rangeOk hr)) fun _ => answered_next _

theorem execSetRange_answered : Answered (execSetRange sa val s) :=
  guarded_answered hi hc fun _ hl hw => require_answered fun hr =>
    access_answered (writeBits_defined hl hw (range_lt_of_rangeOk hr)) fun _ => answered_next _

/-- AND, OR and XOR: the two lengths are equal, so the loop stays inside both storages. -/
theorem bitwise_answered {op : Byte → Byte → Byte} : Answered (bitwise op sa sb s) := by
  refine guardedPair_answered hi hc fun a b hla hlb hwa hwb => require_answered fun hlen => ?_
  obtain ⟨-, ha, -⟩ := (wf_live_iff hla).1 hwa
  obtain ⟨-, hb, -⟩ := (wf_live_iff hlb).1 hwb
  have hzip := zipBytes_spec op (m := ceil8 a.len) ha.ge (hlen ▸ hb.ge)
  exact access_answered ⟨_, hzip⟩ fun _ => answered_next _

theorem execNot_answered : Answered (execNot sa s) := by
  refine guarded_answered hi hc fun v hl hw => ?_
  obtain ⟨-, hsize, -⟩ := (wf_live_iff hl).1 hw
  exact access_answered ⟨_, mapBytes_spec (~~~ ·) hsize.ge⟩ fun _ => answered_next _

theorem execFindFirst_answered : Answered (execFindFirst sa s) :=
  guarded_answered hi hc fun v hl hw =>
    access_answered ⟨_, firstSet_spec fun i hm => wf_covers hw hl (scan_lt v.len i hm)⟩
      fun _ => answered_next _

theorem execCountBits_answered : Answered (execCountBits sa s) :=
  guarded_answered hi hc fun v hl hw =>
    access_answered (readBits_defined hl hw (scan_lt v.len)) fun _ => answered_next _

theorem execCountBytes_answered : Answered (execCountBytes sa s) :=
  guarded_answered hi hc fun _ _ _ => answered_next _

theorem execLength_answered : Answered (execLength sa s) :=
  guarded_answered hi hc fun _ _ _ => answered_next _

theorem execSerialize_answered : Answered (execSerialize sa s) :=
  guarded_answered hi hc fun _ _ _ => answered_next _

end Commands

/-- No meaning ends in a fault or a refusal where the invariant holds and a transaction is presented. -/
theorem exec_answered (hi : s.Inv) (hc : s.Presents c) (i : Instr) : Answered (exec i s) := by
  cases i with
  | create sa => exact execCreate_answered hc
  | get sa => exact execGet_answered hi hc
  | set sa val => exact execSet_answered hi hc
  | resize sa => exact execResize_answered hi hc
  | getBatch sa => exact execGetBatch_answered hi hc
  | setBatch sa val => exact execSetBatch_answered hi hc
  | getRange sa => exact execGetRange_answered hi hc
  | setRange sa val => exact execSetRange_answered hi hc
  | bitAnd sa sb => exact bitwise_answered hi hc
  | bitOr sa sb => exact bitwise_answered hi hc
  | bitXor sa sb => exact bitwise_answered hi hc
  | bitNot sa => exact execNot_answered hi hc
  | findFirst sa => exact execFindFirst_answered hi hc
  | countBits sa => exact execCountBits_answered hi hc
  | countBytes sa => exact execCountBytes_answered hi hc
  | serialize sa => exact execSerialize_answered hi hc
  | deserialize sa => exact execDeserialize_answered hc
  | release sa => exact execRelease_answered hc
  | length sa => exact execLength_answered hi hc

/-- One transaction is one step and one response, whether its word decodes or not (R10, R68). -/
theorem step_answers_transaction (hi : s.Inv) (hc : s.Presents c) :
    ∃ t r, step s = .next t ∧ t.inputs = s.inputs.tail ∧ t.responses = s.responses ++ [r] := by
  cases hd : decode c.cw with
  | error e =>
    exact ⟨raise .illegalCommand s, errorResponse .illegalCommand, step_of_decode_error hc hd,
      rfl, rfl⟩
  | ok i =>
    obtain ⟨t, ht⟩ := exec_answered hi hc i
    obtain ⟨m, r, rfl, -, -⟩ := (exec_did ht).frame
    exact ⟨_, r, (step_of_decode_ok hc hd).trans ht, rfl, rfl⟩

/-! ## Scripts of host inputs -/

/-- The host input is a transaction, which is answered; a reset is not. -/
def HostInput.isCommand : HostInput → Bool
  | .command _ => true
  | .reset _ => false

/-- From a state that meets the invariant the next host input is consumed in one step that keeps the
invariant and responds exactly if the input is a transaction. -/
theorem step_consumes_input {x : HostInput} {rest : List HostInput} (hi : s.Inv)
    (h : s.inputs = x :: rest) :
    ∃ t, step s = .next t ∧ t.Inv ∧ t.inputs = rest ∧
      t.responses.length = s.responses.length + x.isCommand.toNat := by
  cases x with
  | command c =>
    have hc : s.Presents c := by simp [State.Presents, h]
    obtain ⟨t, r, ht, hin, hout⟩ := step_answers_transaction hi hc
    exact ⟨t, ht, step_keeps_Inv ht hi, by simp [hin, h], by simp [hout, HostInput.isCommand]⟩
  | reset abandoned =>
    have ht := step_of_reset h
    exact ⟨applyReset s, ht, step_keeps_Inv ht hi, by simp [h], by simp [HostInput.isCommand]⟩

theorem run_succ_of_step {k : Nat} (h : step s = .next t) :
    Host.Core.run Sys2Proof.core (k + 1) s = Host.Core.run Sys2Proof.core k t := by
  have h' : Sys2Proof.core.step s = .next t := h
  simp only [Host.Core.run, h']

theorem run_consumes_inputs (hi : s.Inv) :
    ∃ t, Host.Core.run Sys2Proof.core s.inputs.length s = .next t ∧ t.Inv ∧ t.inputs = [] ∧
      t.responses.length = s.responses.length + s.inputs.countP HostInput.isCommand := by
  induction hs : s.inputs generalizing s with
  | nil => exact ⟨s, rfl, hi, hs, by simp⟩
  | cons x rest ih =>
    obtain ⟨u, hu, hui, hin, hout⟩ := step_consumes_input hi hs
    obtain ⟨t, ht, hti, hend, hlen⟩ := ih hui hin
    refine ⟨t, (run_succ_of_step hu).trans ht, hti, hend, ?_⟩
    rw [hlen, hout, List.countP_cons]
    cases x.isCommand with
    | false => simp
    | true => simp; omega

/-! ## The obligations -/

/-- Settles O43: a command changes at most its receiver, a reset keeps the number of slots. -/
theorem parametersNeverChange : Obligations.ParametersNeverChange :=
  fun _ _ => step_keeps_params

/-- Settles O47: I-SIZE (R23) makes every storage access of a command that passed its checks defined,
so no command stops; a word that selects no command is answered `IllegalCommand`. -/
theorem everyTransactionIsAnswered : Obligations.EveryTransactionIsAnswered :=
  fun _ _ => step_answers_transaction

/-- Settles O48, by induction on the host's inputs with the invariant carried along. -/
theorem hostScriptsRunToTheEnd : Obligations.HostScriptsRunToTheEnd :=
  fun _ => run_consumes_inputs

/-- Settles O45. -/
theorem stepRunsTheDecodedCommand : Obligations.StepRunsTheDecodedCommand :=
  fun _ _ _ => step_of_decode_ok

end Sys2Proof.Machine
end

section
/-! PROOFS. The state (10_state.md): what it is after reset, the invariant read bit by bit, vectors as sequences of
bools, which commands change `LEN`, and that no step reads an earlier response. -/

namespace Sys2Proof.Machine

variable {s t : State} {c : Command} {i : Instr} {v w : Slot} {sa sb : SlotIndex} {val : Bool}
  {mb : Nat}

/-! ## The state after reset (R32) -/

@[simp] theorem init_params (p : Params) : (State.init p).params = p := by
  simp [State.init, State.params]

theorem init_slot {p : Params} {j : Nat} (h : j < p.nslot) :
    (State.init p).slots[j]? = some Slot.empty := by
  simp [State.init, h]

theorem init_Inv {p : Params} (h : p.Legal) : (State.init p).Inv :=
  ⟨(init_params p).symm ▸ h, Memory.wf_init p.nslot⟩

theorem atReset_legal : Params.atReset.Legal := by decide

/-! ## A well-formed live slot and its sequence of bools (R31) -/

@[simp] theorem bits_length (v : Slot) : v.bits.length = v.len := by simp [Slot.bits]

theorem bits_getD (v : Slot) (k : Nat) :
    v.bits.getD k false = (decide (k < v.len) && storageBit v.st k) := by
  by_cases h : k < v.len <;> simp [Slot.bits, Slot.bit, h]

/-- I-SIZE and I-PAD leave no freedom in the storage: it is the packed sequence. -/
theorem st_eq_pack_bits (hw : Slot.wf mb v = true) (hl : v.live = true) : v.st = pack v.bits := by
  obtain ⟨-, hsize, hpad⟩ := (wf_live_iff hl).1 hw
  refine storage_ext (by simp [hsize]) fun k => ?_
  rw [pack_bit, bits_getD]
  by_cases hk : k < v.len
  · simp [hk]
  · simp [hk, hpad k (by omega)]

theorem eq_vector_pack_bits (hw : Slot.wf mb v = true) (hl : v.live = true) :
    v = vector v.bits.length (pack v.bits) := by
  rw [bits_length, ← st_eq_pack_bits hw hl, vector, ← hl]

theorem wf_vector_pack {q : List Bool} (h : q.length ≤ 8 * mb) :
    Slot.wf mb (vector q.length (pack q)) = true := by
  refine wf_vector h (pack_length q) fun k hk => ?_
  rw [pack_bit, List.getD_eq_default _ _ hk]

theorem vector_pack_bits (q : List Bool) : (vector q.length (pack q)).bits = q := by
  refine List.ext_getElem (bits_length _) fun k hk hq => ?_
  simp [Slot.bits, Slot.bit, vector, pack_bit, hq]

/-! ## Commands that keep `LEN` of every slot (R22) -/

/-- `LEN` of every slot, in slot order. -/
def State.lens (s : State) : List Nat := s.slots.map Slot.len

theorem lens_getElem? {j : Nat} (h : s.slots[j]? = some v) : s.lens[j]? = some v.len := by
  simp [State.lens, h]

theorem withSlot_lens (hv : s.Holds sa v) (hlen : w.len = v.len) :
    (s.withSlot sa w).lens = s.lens := by
  obtain ⟨hj, hget⟩ := List.getElem?_eq_some_iff.1 (lens_getElem? hv)
  have hself : s.lens.set sa.toNat v.len = s.lens := by rw [← hget, List.set_getElem_self]
  rw [State.lens, withSlot_slots, List.map_set, hlen]
  exact hself

/-- If the command answers, `LEN` of every slot is what it was in `s`. -/
def KeepsLens (s : State) (r : Result) : Prop := ∀ t, r = .next t → t.lens = s.lens

theorem require_keepsLens {p : Prop} [Decidable p] {e : ErrorKind} {k : Result}
    (h : p → KeepsLens s k) : KeepsLens s (require p e s k) := by
  intro t ht
  obtain rfl | ⟨hp, ht⟩ := require_next ht
  · rfl
  · exact h hp t ht

theorem access_keepsLens {α : Type} {x : Option α} {k : α → Result}
    (h : ∀ y, KeepsLens s (k y)) : KeepsLens s (access x k) := by
  intro t ht
  obtain ⟨y, -, ht⟩ := access_next ht
  exact h y t ht

theorem guarded_keepsLens {din : Command → Prop} [∀ c, Decidable (din c)]
    {k : Command → Slot → Result} (h : ∀ c v, s.Holds sa v → KeepsLens s (k c v)) :
    KeepsLens s (guarded din sa s k) := by
  intro t ht
  obtain rfl | rfl | ⟨c, v, -, hv, -, -, ht⟩ := guarded_next ht
  · rfl
  · rfl
  · exact h c v hv t ht

theorem guardedPair_keepsLens {k : Slot → Slot → Result}
    (h : ∀ a b, s.Holds sa a → KeepsLens s (k a b)) : KeepsLens s (guardedPair sa sb s k) := by
  intro t ht
  obtain rfl | rfl | ⟨_, a, b, -, ha, -, -, -, ht⟩ := guardedPair_next ht
  · rfl
  · rfl
  · exact h a b ha t ht

/-- Writing new storage, and nothing else, into the receiver. -/
theorem ret_storage_keepsLens (hv : s.Holds sa v) (st : List Byte) :
    KeepsLens s (.next (ret (s.withSlot sa { v with st := st }) 0 [])) := by
  rintro _ ⟨⟩
  exact withSlot_lens hv rfl

/-- The contract SET, SETBATCH and SETRANGE share: past the guard and one check on the positions, storage
is all they write. -/
theorem checkedWrite_keepsLens {din : Command → Prop} [∀ c, Decidable (din c)]
    {p : Command → Slot → Prop} [∀ c v, Decidable (p c v)] {e : ErrorKind}
    {x : Command → Slot → Option (List Byte)} :
    KeepsLens s (guarded din sa s fun c v => require (p c v) e s <| access (x c v) fun st =>
      .next (ret (s.withSlot sa { v with st := st }) 0 [])) :=
  guarded_keepsLens fun _ _ hv => require_keepsLens fun _ =>
    access_keepsLens (ret_storage_keepsLens hv)

theorem bitwise_keepsLens {op : Byte → Byte → Byte} : KeepsLens s (bitwise op sa sb s) :=
  guardedPair_keepsLens fun _ _ ha => require_keepsLens fun _ =>
    access_keepsLens fun _ => ret_storage_keepsLens ha _

theorem execNot_keepsLens : KeepsLens s (execNot sa s) :=
  guarded_keepsLens fun _ _ hv => access_keepsLens fun _ => ret_storage_keepsLens hv _

theorem Did.slots_of_isRead (h : Did i s t) (hr : i.isRead = true) : t.slots = s.slots := by
  cases h with
  | raised e he ht => rw [ht, raise_slots]
  | returned x q _ ht => rw [ht, ret_slots]
  | wrote v w hw => exact absurd hr (by simp [hw])

theorem read_keepsLens (hr : i.isRead = true) : KeepsLens s (exec i s) := by
  intro t ht
  rw [State.lens, (exec_did ht).slots_of_isRead hr, State.lens]

/-- Every command keeps the lengths but the four that may write one. -/
theorem exec_keepsLens_or (i : Instr) :
    KeepsLens s (exec i s) ∨ i = .create i.receiver ∨ i = .resize i.receiver ∨
      i = .deserialize i.receiver ∨ i = .release i.receiver := by
  cases i with
  | create sa => exact .inr (.inl rfl)
  | resize sa => exact .inr (.inr (.inl rfl))
  | deserialize sa => exact .inr (.inr (.inr (.inl rfl)))
  | release sa => exact .inr (.inr (.inr (.inr rfl)))
  | set sa val => exact .inl checkedWrite_keepsLens
  | setBatch sa val => exact .inl checkedWrite_keepsLens
  | setRange sa val => exact .inl checkedWrite_keepsLens
  | bitAnd sa sb => exact .inl bitwise_keepsLens
  | bitOr sa sb => exact .inl bitwise_keepsLens
  | bitXor sa sb => exact .inl bitwise_keepsLens
  | bitNot sa => exact .inl execNot_keepsLens
  | get sa => exact .inl (read_keepsLens rfl)
  | getBatch sa => exact .inl (read_keepsLens rfl)
  | getRange sa => exact .inl (read_keepsLens rfl)
  | findFirst sa => exact .inl (read_keepsLens rfl)
  | countBits sa => exact .inl (read_keepsLens rfl)
  | countBytes sa => exact .inl (read_keepsLens rfl)
  | serialize sa => exact .inl (read_keepsLens rfl)
  | length sa => exact .inl (read_keepsLens rfl)

/-! ## The record of responses is only added to (R26, R30) -/

/-- The state `s` with another record of the responses delivered so far. -/
def State.withResponses (s : State) (l : List Response) : State := { s with responses := l }

/-- `r'` does from `s` with the record `l` what `r` does from `s`: if `r` answers, `r'` answers the same
state, and both add the same responses to their records. -/
def Replays (s : State) (l : List Response) (r r' : Result) : Prop :=
  ∀ t, r = .next t → ∃ new, t.responses = s.responses ++ new ∧
    r' = .next (t.withResponses (l ++ new))

section Replays

variable {l : List Response}

theorem replays_quiet (h : t.responses = s.responses) :
    Replays s l (.next t) (.next (t.withResponses l)) := by
  rintro _ ⟨⟩
  exact ⟨[], by simp [h], by simp⟩

/-- Every response is given through `State.answer`, which appends it to the record. -/
theorem replays_answer (r : Response) (h : t.responses = s.responses) :
    Replays s l (.next (t.answer r)) (.next ((t.withResponses l).answer r)) := by
  rintro _ ⟨⟩
  exact ⟨[r], by simp [h], rfl⟩

theorem replays_raise (e : ErrorKind) :
    Replays s l (.next (raise e s)) (.next (raise e (s.withResponses l))) :=
  replays_answer _ rfl

theorem replays_ret (x : Int) (q : List Byte) :
    Replays s l (.next (ret s x q)) (.next (ret (s.withResponses l) x q)) :=
  replays_answer _ rfl

theorem replays_write (w : Slot) (x : Int) (q : List Byte) :
    Replays s l (.next (ret (s.withSlot sa w) x q))
      (.next (ret ((s.withResponses l).withSlot sa w) x q)) :=
  replays_answer (t := s.withSlot sa w) _ rfl

theorem require_replays {p : Prop} [Decidable p] {e : ErrorKind} {k k' : Result}
    (h : Replays s l k k') :
    Replays s l (require p e s k) (require p e (s.withResponses l) k') := by
  by_cases hp : p
  · rw [require_pos hp, require_pos hp]; exact h
  · rw [require_neg hp, require_neg hp]; exact replays_raise e

theorem access_replays {α : Type} {x : Option α} {k k' : α → Result}
    (h : ∀ y, Replays s l (k y) (k' y)) : Replays s l (access x k) (access x k') := by
  cases x with
  | none => rintro _ ⟨⟩
  | some y => exact h y

theorem onCommand_replays {k k' : Command → Result} (h : ∀ c, Replays s l (k c) (k' c)) :
    Replays s l (onCommand s k) (onCommand (s.withResponses l) k') := by
  intro t ht
  obtain ⟨c, hc, ht⟩ := onCommand_next ht
  rw [onCommand_of_presents (s := s.withResponses l) hc]
  exact h c t ht

theorem onSlot_replays {k k' : Slot → Result} (h : ∀ v, Replays s l (k v) (k' v)) :
    Replays s l (onSlot s sa k) (onSlot (s.withResponses l) sa k') := by
  cases hv : s.slots[sa.toNat]? with
  | none =>
    rw [onSlot_outside hv, onSlot_outside (s := s.withResponses l) hv]
    exact replays_raise _
  | some v =>
    rw [onSlot_of_holds hv, onSlot_of_holds (s := s.withResponses l) hv]
    exact h v

theorem guarded_replays {din : Command → Prop} [∀ c, Decidable (din c)]
    {k k' : Command → Slot → Result} (h : ∀ c v, Replays s l (k c v) (k' c v)) :
    Replays s l (guarded din sa s k) (guarded din sa (s.withResponses l) k') :=
  onCommand_replays fun c => onSlot_replays fun v => require_replays <| require_replays <| h c v

theorem vacant_replays {din : Command → Prop} [∀ c, Decidable (din c)]
    {k k' : Command → Result} (h : ∀ c, Replays s l (k c) (k' c)) :
    Replays s l (vacant din sa s k) (vacant din sa (s.withResponses l) k') :=
  onCommand_replays fun c => onSlot_replays fun _ => require_replays <| require_replays <| h c

theorem guardedPair_replays {k k' : Slot → Slot → Result}
    (h : ∀ a b, Replays s l (k a b) (k' a b)) :
    Replays s l (guardedPair sa sb s k) (guardedPair sa sb (s.withResponses l) k') :=
  onCommand_replays fun _ => onSlot_replays fun a => onSlot_replays fun b =>
    require_replays <| require_replays <| h a b

theorem bitwise_replays {op : Byte → Byte → Byte} :
    Replays s l (bitwise op sa sb s) (bitwise op sa sb (s.withResponses l)) :=
  guardedPair_replays fun _ _ => require_replays <| access_replays fun _ => replays_write _ _ _

/-- No command reads the record. Each is built from the shapes above, and its checks and accesses use the
slot file, the parameters and the transaction alone. -/
theorem exec_replays (i : Instr) : Replays s l (exec i s) (exec i (s.withResponses l)) := by
  cases i with
  | create sa => exact vacant_replays fun _ => require_replays <| replays_write _ _ _
  | get sa =>
    exact guarded_replays fun _ _ => require_replays <| access_replays fun _ => replays_ret _ _
  | set sa val =>
    exact guarded_replays fun _ _ => require_replays <| access_replays fun _ => replays_write _ _ _
  | resize sa => exact guarded_replays fun _ _ => require_replays <| replays_write _ _ _
  | getBatch sa =>
    exact guarded_replays fun _ _ => require_replays <| access_replays fun _ => replays_ret _ _
  | setBatch sa val =>
    exact guarded_replays fun _ _ => require_replays <| access_replays fun _ => replays_write _ _ _
  | getRange sa =>
    exact guarded_replays fun _ _ => require_replays <| access_replays fun _ => replays_ret _ _
  | setRange sa val =>
    exact guarded_replays fun _ _ => require_replays <| access_replays fun _ => replays_write _ _ _
  | bitAnd sa sb => exact bitwise_replays
  | bitOr sa sb => exact bitwise_replays
  | bitXor sa sb => exact bitwise_replays
  | bitNot sa => exact guarded_replays fun _ _ => access_replays fun _ => replays_write _ _ _
  | findFirst sa => exact guarded_replays fun _ _ => access_replays fun _ => replays_ret _ _
  | countBits sa => exact guarded_replays fun _ _ => access_replays fun _ => replays_ret _ _
  | countBytes sa => exact guarded_replays fun _ _ => replays_ret _ _
  | serialize sa => exact guarded_replays fun _ _ => replays_ret _ _
  | deserialize sa =>
    exact vacant_replays fun _ => require_replays <| require_replays <| require_replays <|
      replays_write _ _ _
  | release sa =>
    exact onCommand_replays fun _ => onSlot_replays fun _ => require_replays <| replays_write _ _ _
  | length sa => exact guarded_replays fun _ _ => replays_ret _ _

theorem step_replays : Replays s l (step s) (step (s.withResponses l)) := by
  have hw : nextWork (s.withResponses l) = nextWork s := rfl
  unfold step
  rw [hw]
  cases nextWork s with
  | wait => exact replays_quiet (t := s) rfl
  | reset => exact replays_quiet (t := applyReset s) rfl
  | reject e => exact replays_raise _
  | run i => exact exec_replays i

end Replays

/-! ## The obligations -/

/-- Settles O37: every write of a command puts a well-formed slot in place of a well-formed one. -/
theorem stepKeepsTheInvariant : Obligations.StepKeepsTheInvariant :=
  fun _ _ hi h => step_keeps_Inv h hi

/-- Settles O22: the commands other than these four return the slot file as it was or write storage
alone. -/
theorem lenChangesOnlyByFourCommands : Obligations.LenChangesOnlyByFourCommands := by
  intro s t i j v w h hv hw hne
  refine (exec_keepsLens_or (s := s) i).resolve_left fun hk => hne ?_
  have hsame : some v.len = some w.len := by
    rw [← lens_getElem? hv, ← lens_getElem? hw, hk t h]
  exact Option.some.inj hsame

/-- Settles O39: the sequence of a slot determines the slot, and each short enough sequence has one. -/
theorem liveSlotsAreSequencesOfBools : Obligations.LiveSlotsAreSequencesOfBools := by
  refine ⟨fun mb v hw hl => ⟨bits_length v, st_eq_pack_bits hw hl⟩, fun mb q hq => ?_⟩
  refine ⟨vector q.length (pack q), wf_vector_pack hq, rfl, vector_pack_bits q, ?_⟩
  rintro w hw hl rfl
  exact eq_vector_pack_bits hw hl

/-- Settles O42: a step takes nothing from the record of responses and only appends to it. -/
theorem pastResponsesHaveNoInfluence : Obligations.PastResponsesHaveNoInfluence :=
  fun _ t _ h => step_replays t h

/-- Settles O35, with `Params.atReset` as the parameters of the machine's reset state. -/
theorem resetLeavesEverySlotEmpty : Obligations.ResetLeavesEverySlotEmpty :=
  ⟨fun p => ⟨init_params p, fun _ => init_slot⟩, Params.atReset, atReset_legal, rfl⟩

/-- Settles O36: the empty slot is well-formed for every capacity. -/
theorem resetMeetsTheInvariant : Obligations.ResetMeetsTheInvariant :=
  ⟨init_Inv atReset_legal, fun _ => init_Inv⟩

/-- Settles O38: I-PAD, kept on the last byte alone, says the same of every bit at or above `LEN`. -/
theorem invariantIsSizeAndPadding : Obligations.InvariantIsSizeAndPadding :=
  fun _ _ _ hi hv hl => (wf_live_iff hl).1 (Memory.wf_get hi.2 hv)

end Sys2Proof.Machine
end

section
/-! PROOFS. The memory (20_memory.md): a command touches its receiver alone and depends on the slots it names alone,
reads and failures repeat, six of the writes are idempotent, and the positions of a stream are those written to it. -/

namespace Sys2Proof.Machine

variable {s t : State} {c : Command} {i : Instr} {v w : Slot} {sa sb : SlotIndex} {val : Bool}
  {j : Nat}

/-! ## What a command that answers leaves as it was -/

theorem Did.other_slots (h : Did i s t) (hj : j ≠ i.receiver.toNat) : t.slots[j]? = s.slots[j]? := by
  cases h with
  | raised e he ht => rw [ht, raise_slots]
  | returned x q hr ht => rw [ht, ret_slots]
  | wrote v w hr hv hw ht => rw [ht, ret_slots, withSlot_slots, List.getElem?_set_ne hj.symm]

theorem Did.params_eq (h : Did i s t) : t.params = s.params := by
  obtain ⟨m, r, rfl, hlen, -⟩ := h.frame
  simp [State.params, hlen]

/-- Only a command that succeeds and does not just read may change the slot file (R46, R135). -/
theorem Did.slots_of_read_or_failed {r : Response} (h : Did i s t) (hr : t.lastResponse? = some r)
    (hq : i.isRead = true ∨ r.status ≠ .ok) : t.slots = s.slots := by
  obtain hread | hfail := hq
  · exact h.slots_of_isRead hread
  cases h with
  | raised e he ht => rw [ht, raise_slots]
  | returned x q _ ht => rw [ht, ret_slots]
  | wrote v w _ hv hw ht =>
    rw [ht, lastResponse?_ret, Option.some.injEq] at hr
    exact absurd (hr ▸ rfl) hfail

/-! ## Two states that agree on the named slots (R54) -/

/-- If `r` answers, so does `r'`, with the same response and the same slot `sa`. -/
def Mirrors (sa : SlotIndex) (r r' : Result) : Prop :=
  ∀ s', r = .next s' → ∃ t', r' = .next t' ∧ s'.lastResponse? = t'.lastResponse? ∧
    s'.slots[sa.toNat]? = t'.slots[sa.toNat]?

theorem access_mirrors {α : Type} {x : Option α} {k k' : α → Result}
    (h : ∀ y, Mirrors sa (k y) (k' y)) : Mirrors sa (access x k) (access x k') := by
  intro s' hs'
  obtain ⟨y, rfl, hs'⟩ := access_next hs'
  exact h y s' hs'

theorem onCommand_mirrors {k k' : Command → Result} (hs : s.Presents c) (ht : t.Presents c)
    (h : Mirrors sa (k c) (k' c)) : Mirrors sa (onCommand s k) (onCommand t k') := by
  rw [onCommand_of_presents hs, onCommand_of_presents ht]
  exact h

section Mirrors

variable (hsa : s.slots[sa.toNat]? = t.slots[sa.toNat]?)
include hsa

theorem mirrors_raise (e : ErrorKind) : Mirrors sa (.next (raise e s)) (.next (raise e t)) := by
  rintro _ ⟨⟩
  exact ⟨_, rfl, by simp, hsa⟩

theorem mirrors_ret (x : Int) (q : List Byte) :
    Mirrors sa (.next (ret s x q)) (.next (ret t x q)) := by
  rintro _ ⟨⟩
  exact ⟨_, rfl, by simp, hsa⟩

theorem mirrors_write (w : Slot) (x : Int) (q : List Byte) :
    Mirrors sa (.next (ret (s.withSlot sa w) x q)) (.next (ret (t.withSlot sa w) x q)) := by
  rintro _ ⟨⟩
  refine ⟨_, rfl, by simp, ?_⟩
  simp only [ret_slots, withSlot_slots, List.getElem?_set_self', hsa]

theorem require_mirrors {p : Prop} [Decidable p] {e : ErrorKind} {k k' : Result}
    (h : Mirrors sa k k') : Mirrors sa (require p e s k) (require p e t k') := by
  by_cases hp : p
  · rw [require_pos hp, require_pos hp]; exact h
  · rw [require_neg hp, require_neg hp]; exact mirrors_raise hsa e

/-- The slot read, receiver or operand, is one on which the two states agree. -/
theorem onSlot_mirrors {k k' : Slot → Result} (hsb : s.slots[sb.toNat]? = t.slots[sb.toNat]?)
    (h : ∀ v, Mirrors sa (k v) (k' v)) : Mirrors sa (onSlot s sb k) (onSlot t sb k') := by
  cases hv : s.slots[sb.toNat]? with
  | none =>
    rw [onSlot_outside hv, onSlot_outside (hsb ▸ hv)]
    exact mirrors_raise hsa _
  | some v =>
    rw [onSlot_of_holds hv, onSlot_of_holds (hsb ▸ hv)]
    exact h v

variable (hs : s.Presents c) (ht : t.Presents c)
include hs ht

theorem guarded_mirrors {din : Command → Prop} [∀ c, Decidable (din c)]
    {k k' : Command → Slot → Result} (h : ∀ v, Mirrors sa (k c v) (k' c v)) :
    Mirrors sa (guarded din sa s k) (guarded din sa t k') :=
  onCommand_mirrors hs ht <| onSlot_mirrors hsa hsa fun v =>
    require_mirrors hsa <| require_mirrors hsa <| h v

theorem vacant_mirrors {din : Command → Prop} [∀ c, Decidable (din c)]
    {k k' : Command → Result} (h : Mirrors sa (k c) (k' c)) :
    Mirrors sa (vacant din sa s k) (vacant din sa t k') :=
  onCommand_mirrors hs ht <| onSlot_mirrors hsa hsa fun _ =>
    require_mirrors hsa <| require_mirrors hsa h

theorem bitwise_mirrors {op : Byte → Byte → Byte}
    (hsb : s.slots[sb.toNat]? = t.slots[sb.toNat]?) :
    Mirrors sa (bitwise op sa sb s) (bitwise op sa sb t) :=
  onCommand_mirrors hs ht <| onSlot_mirrors hsa hsa fun _ => onSlot_mirrors hsa hsb fun _ =>
    require_mirrors hsa <| require_mirrors hsa <| require_mirrors hsa <|
      access_mirrors fun _ => mirrors_write hsa _ _ _

end Mirrors

/-- Each command is built from the shapes above. Besides the slots it names and its transaction it uses
the two capacities alone, which are parameters. -/
theorem exec_mirrors (hs : s.Presents c) (ht : t.Presents c) (hp : s.params = t.params)
    (hsa : s.slots[i.receiver.toNat]? = t.slots[i.receiver.toNat]?)
    (hsb : ∀ sb, i.operand? = some sb → s.slots[sb.toNat]? = t.slots[sb.toNat]?) :
    Mirrors i.receiver (exec i s) (exec i t) := by
  have hbatch : s.maxBatch = t.maxBatch := congrArg Params.maxBatch hp
  have hbits : s.maxBits = t.maxBits := congrArg (fun p => 8 * p.maxBytes) hp
  cases i with
  | create sa =>
    simp only [exec, execCreate, hbits]
    exact vacant_mirrors hsa hs ht <| require_mirrors hsa <| mirrors_write hsa _ _ _
  | get sa =>
    exact guarded_mirrors hsa hs ht fun _ => require_mirrors hsa <|
      access_mirrors fun _ => mirrors_ret hsa _ _
  | set sa val =>
    exact guarded_mirrors hsa hs ht fun _ => require_mirrors hsa <|
      access_mirrors fun _ => mirrors_write hsa _ _ _
  | resize sa =>
    simp only [exec, execResize, hbits]
    exact guarded_mirrors hsa hs ht fun _ => require_mirrors hsa <| mirrors_write hsa _ _ _
  | getBatch sa =>
    simp only [exec, execGetBatch, hbatch]
    exact guarded_mirrors hsa hs ht fun _ => require_mirrors hsa <|
      access_mirrors fun _ => mirrors_ret hsa _ _
  | setBatch sa val =>
    simp only [exec, execSetBatch, hbatch]
    exact guarded_mirrors hsa hs ht fun _ => require_mirrors hsa <|
      access_mirrors fun _ => mirrors_write hsa _ _ _
  | getRange sa =>
    exact guarded_mirrors hsa hs ht fun _ => require_mirrors hsa <|
      access_mirrors fun _ => mirrors_ret hsa _ _
  | setRange sa val =>
    exact guarded_mirrors hsa hs ht fun _ => require_mirrors hsa <|
      access_mirrors fun _ => mirrors_write hsa _ _ _
  | bitAnd sa sb => exact bitwise_mirrors hsa hs ht (hsb sb rfl)
  | bitOr sa sb => exact bitwise_mirrors hsa hs ht (hsb sb rfl)
  | bitXor sa sb => exact bitwise_mirrors hsa hs ht (hsb sb rfl)
  | bitNot sa =>
    exact guarded_mirrors hsa hs ht fun _ => access_mirrors fun _ => mirrors_write hsa _ _ _
  | findFirst sa =>
    exact guarded_mirrors hsa hs ht fun _ => access_mirrors fun _ => mirrors_ret hsa _ _
  | countBits sa =>
    exact guarded_mirrors hsa hs ht fun _ => access_mirrors fun _ => mirrors_ret hsa _ _
  | countBytes sa => exact guarded_mirrors hsa hs ht fun _ => mirrors_ret hsa _ _
  | serialize sa => exact guarded_mirrors hsa hs ht fun _ => mirrors_ret hsa _ _
  | deserialize sa =>
    simp only [exec, execDeserialize, hbits]
    exact vacant_mirrors hsa hs ht <| require_mirrors hsa <| require_mirrors hsa <|
      require_mirrors hsa <| mirrors_write hsa _ _ _
  | release sa =>
    exact onCommand_mirrors hs ht <| onSlot_mirrors hsa hsa fun _ =>
      require_mirrors hsa <| mirrors_write hsa _ _ _
  | length sa => exact guarded_mirrors hsa hs ht fun _ => mirrors_ret hsa _ _

/-! ## Reads and failures presented again (R46, R143) -/

/-- The slot file is as it was, so the second run meets what the first one met. -/
theorem read_or_failed_repeats {r : Response} (hs : s.Presents c) (h : exec i s = .next t)
    (hr : t.lastResponse? = some r) (hq : i.isRead = true ∨ r.status ≠ .ok) (ht : t.Presents c) :
    t.slots = s.slots ∧
      ∃ u, exec i t = .next u ∧ u.slots = s.slots ∧ u.lastResponse? = some r := by
  have hslots : t.slots = s.slots := (exec_did h).slots_of_read_or_failed hr hq
  have hagree : ∀ j : Nat, s.slots[j]? = t.slots[j]? := fun j => by rw [hslots]
  obtain ⟨u, hu, hlast, -⟩ :=
    exec_mirrors hs ht (exec_did h).params_eq.symm (hagree _) (fun _ _ => hagree _) t h
  have hur : u.lastResponse? = some r := hlast ▸ hr
  exact ⟨hslots, u, hu, ((exec_did hu).slots_of_read_or_failed hur hq).trans hslots, hur⟩

/-! ## The positions of a stream (R48) -/

/-- Chunk `j` of a concatenation of chunks of one length. -/
theorem take_drop_flatMap {α β : Type} {f : α → List β} {n : Nat} (hf : ∀ x, (f x).length = n)
    {l : List α} (hj : j < l.length) : ((l.flatMap f).drop (n * j)).take n = f l[j] := by
  induction l generalizing j with
  | nil => simp at hj
  | cons x l ih =>
    rw [List.flatMap_cons]
    cases j with
    | zero => simp [hf x]
    | succ j =>
      have hdrop : n * (j + 1) = (f x).length + n * j := by rw [hf x]; ring
      rw [hdrop, List.drop_length_add_append, List.getElem_cons_succ]
      exact ih (by simpa using hj)

theorem length_flatMap_le64 {α : Type} (f : α → Nat) (l : List α) :
    (l.flatMap fun x => le64 (f x)).length = 8 * l.length := by
  simp [List.length_flatMap, Nat.mul_comm]

theorem positions_of_stream {ps : List Int} (hb : ∀ p ∈ ps, -2 ^ 63 ≤ p ∧ p < 2 ^ 63)
    (hd : c.din = ps.flatMap fun p => le64 (u64 p).toNat) : c.positions = ps := by
  have hsize : c.batchSize = ps.length := by
    rw [Command.batchSize, hd, length_flatMap_le64]; omega
  refine List.ext_getElem ((positions_length c).trans hsize) fun k _ hk => ?_
  obtain ⟨hlo, hhi⟩ := hb ps[k] (List.getElem_mem hk)
  have hchunk : (c.din.drop (8 * k)).take 8 = le64 (u64 ps[k]).toNat := by
    rw [hd, take_drop_flatMap (fun _ => le64_length _) hk]
  simp only [Command.positions, List.getElem_map, List.getElem_range, Command.position, hchunk,
    unle_le64 (u64 ps[k]).isLt, BitVec.ofNat_toNat, BitVec.setWidth_eq]
  exact s64_u64 hlo hhi

/-! ## The storage of a write done twice (R46) -/

theorem writeBits_inside {st st' : List Byte} {is : List Nat} (h : writeBits val st is = some st') :
    ∀ i ∈ is, i / 8 < st.length := by
  induction is generalizing st with
  | nil => simp
  | cons i is ih =>
    obtain ⟨st₁, h₁, h₂⟩ := Option.bind_eq_some_iff.1 h
    have hi : i / 8 < st.length := by
      by_contra hi
      simp [writeBit, memRead, List.getElem?_eq_none (not_lt.1 hi)] at h₁
    obtain ⟨st₂, hst₂, hlen, -⟩ := writeBit_spec val hi
    obtain rfl : st₂ = st₁ := Option.some.inj (hst₂.symm.trans h₁)
    rw [List.forall_mem_cons]
    exact ⟨hi, hlen ▸ ih h₂⟩

theorem writeBits_again {st st' : List Byte} {is : List Nat} (h : writeBits val st is = some st') :
    writeBits val st' is = some st' := by
  have hin := writeBits_inside h
  obtain ⟨st₁, h₁, hlen₁, hbit₁⟩ := writeBits_spec val hin
  obtain rfl : st₁ = st' := Option.some.inj (h₁.symm.trans h)
  obtain ⟨st₂, h₂, hlen₂, hbit₂⟩ := writeBits_spec (st := st₁) val (hlen₁ ▸ hin)
  have hsame : st₂ = st₁ := by
    refine storage_ext hlen₂ fun k => ?_
    rw [hbit₂, hbit₁]
    by_cases hk : k ∈ is <;> simp [hk]
  rw [h₂, hsame]

theorem writeBits_singleton (st : List Byte) (k : Nat) :
    writeBits val st [k] = writeBit val st k := by
  simp [writeBits]

theorem writeBit_again {st st' : List Byte} {k : Nat} (h : writeBit val st k = some st') :
    writeBit val st' k = some st' := by
  rw [← writeBits_singleton] at h ⊢
  exact writeBits_again h

theorem resizeBytes_again (n : Nat) (old : List Byte) :
    resizeBytes n (resizeBytes n old) = resizeBytes n old := by
  refine storage_ext (by rw [resizeBytes_length, resizeBytes_length]) fun k => ?_
  rw [resizeBytes_bit, resizeBytes_bit, ← Bool.and_assoc, Bool.and_self]

/-- The storage AND, OR and XOR leave in a receiver of `n` bits (R105; `bitwise_run`). -/
def combined (op : Byte → Byte → Byte) (n : Nat) (a b : List Byte) : List Byte :=
  maskTail n (List.zipWith op a b)

/-- The bytewise operation `op` is the operation `f` on each of the eight bits. -/
def ActsOnBits (op : Byte → Byte → Byte) (f : Bool → Bool → Bool) : Prop :=
  ∀ x y : Byte, ∀ j < 8, (op x y).getLsbD j = f (x.getLsbD j) (y.getLsbD j)

theorem and_actsOnBits : ActsOnBits (· &&& ·) (· && ·) := fun _ _ _ _ => BitVec.getLsbD_and

theorem or_actsOnBits : ActsOnBits (· ||| ·) (· || ·) := fun _ _ _ _ => BitVec.getLsbD_or

section Combined

variable {op : Byte → Byte → Byte} {f : Bool → Bool → Bool} {n : Nat} {a b b' : List Byte}

theorem combined_length (ha : a.length = ceil8 n) (hb : b.length = ceil8 n) :
    (combined op n a b).length = ceil8 n := by
  simp [combined, maskTail_length, ha, hb]

theorem combined_bit (hop : ActsOnBits op f)
    (ha : a.length = ceil8 n) (hb : b.length = ceil8 n) (k : Nat) :
    storageBit (combined op n a b) k =
      (decide (k < n) && f (storageBit a k) (storageBit b k)) := by
  rw [combined, maskTail_bit (by simp [ha, hb])]
  by_cases hk : k < n
  · have hc := ceil8_bounds n
    rw [storageBit_zipWith hop (ha.trans hb.symm) (by omega)]
  · simp [hk]

/-- Combined once more with the operand, or with itself where the operand is the receiver. -/
theorem combined_again (hop : ActsOnBits op f) (habsorb : ∀ x y, f (f x y) y = f x y)
    (hself : ∀ x, f x x = x) (ha : a.length = ceil8 n) (hb : b.length = ceil8 n) (hb' : b' = b ∨ b' = combined op n a b) :
    combined op n (combined op n a b) b' = combined op n a b := by
  have hlen := combined_length (op := op) ha hb
  have hlen' : b'.length = ceil8 n := by
    obtain rfl | rfl := hb'
    · exact hb
    · exact hlen
  refine storage_ext (by rw [combined_length hlen hlen', hlen]) fun k => ?_
  rw [combined_bit hop hlen hlen', combined_bit hop ha hb]
  by_cases hk : k < n
  · obtain rfl | rfl := hb'
    · simp [hk, habsorb]
    · simp [combined_bit hop ha hb, hk, hself]
  · simp [hk]

end Combined

/-! ## The six idempotent commands (R46) -/

theorem presents_unique {c' : Command} (h' : s.Presents c') (h : s.Presents c) : c' = c := by
  simpa [State.Presents] using h'.symm.trans h

theorem holds_written (hv : s.Holds sa v) (w : Slot) (x : Int) (q : List Byte) :
    (ret (s.withSlot sa w) x q).Holds sa w := by
  obtain ⟨hlt, -⟩ := List.getElem?_eq_some_iff.1 hv
  simp [State.Holds, hlt]

theorem holds_unwritten (hv : s.Holds sb v) (hne : sb ≠ sa) (w : Slot) (x : Int) (q : List Byte) :
    (ret (s.withSlot sa w) x q).Holds sb v := by
  have hne' : sa.toNat ≠ sb.toNat := fun h => hne (BitVec.eq_of_toNat_eq h.symm)
  simpa [State.Holds, List.getElem?_set_ne hne'] using hv

theorem withSlot_of_holds (h : t.Holds sa w) : (t.withSlot sa w).slots = t.slots := by
  obtain ⟨hlt, rfl⟩ := List.getElem?_eq_some_iff.1 h
  exact List.set_getElem_self hlt

/-- What an idempotent command did from `s` to `t`: it raised an error, or it replaced its receiver by a
slot that it writes again in `t`. -/
inductive Settles (i : Instr) (s t : State) : Prop where
  /-- It raised an error. -/
  | raised (e : ErrorKind) (ht : t = raise e s)
  /-- It replaced its receiver by `w`, as it does a second time. -/
  | wrote (v w : Slot) (hv : s.Holds i.receiver v) (ht : t = ret (s.withSlot i.receiver w) 0 [])
    (again : exec i t = .next (ret (t.withSlot i.receiver w) 0 []))

theorem Settles.repeats (h : Settles i s t) (hs : s.Presents c) (he : exec i s = .next t)
    (ht : t.Presents c) :
    ∃ u, exec i t = .next u ∧ u.slots = t.slots ∧ u.lastResponse? = t.lastResponse? := by
  cases h with
  | raised e hte =>
    have hlast : t.lastResponse? = some (errorResponse e) := hte ▸ lastResponse?_raise
    obtain ⟨hslots, u, hu, husl, hur⟩ :=
      read_or_failed_repeats hs he hlast (.inr (by simp [errorResponse])) ht
    exact ⟨u, hu, husl.trans hslots.symm, hur.trans hlast.symm⟩
  | wrote v w hv htw again =>
    have hw : t.Holds i.receiver w := htw ▸ holds_written hv w 0 []
    refine ⟨_, again, withSlot_of_holds hw, ?_⟩
    rw [lastResponse?_ret, htw, lastResponse?_ret]

/-- SET, SETBATCH and SETRANGE: past the guard and a check on `LEN`, a write `x` of the storage that done
twice is done once. -/
theorem checkedWrite_settles {din : Nat → Command → Prop} [∀ m c, Decidable (din m c)]
    {p : Command → Nat → Prop} [∀ c n, Decidable (p c n)]
    {x : Command → List Byte → Option (List Byte)} (hi : i.receiver = sa)
    (hexec : ∀ s, exec i s = guarded (din s.maxBatch) sa s fun c v =>
      require (p c v.len) .outOfRange s <| access (x c v.st) fun st =>
      .next (ret (s.withSlot sa { v with st := st }) 0 []))
    (hx : ∀ c st st', x c st = some st' → x c st' = some st')
    (h : exec i s = .next t) (hs : s.Presents c) (ht : t.Presents c) : Settles i s t := by
  subst hi
  rw [hexec] at h
  obtain h | h | ⟨c', v, hc', hv, hd, hl, h⟩ := guarded_next h
  · exact .raised _ h
  · exact .raised _ h
  obtain rfl := presents_unique hc' hs
  obtain h | ⟨hp, h⟩ := require_next h
  · exact .raised _ h
  obtain ⟨st, hst, h⟩ := access_next h
  cases h
  refine .wrote v _ hv rfl ?_
  rw [hexec, guarded_run ht (holds_written hv _ _ _) (by exact hd) (by exact hl), require_pos hp]
  simp only [hx _ _ _ hst, access_some]

theorem execResize_settles (h : execResize sa s = .next t) (hs : s.Presents c)
    (ht : t.Presents c) : Settles (.resize sa) s t := by
  obtain h | h | ⟨c', v, hc', hv, hd, hl, h⟩ := guarded_next h
  · exact .raised _ h
  · exact .raised _ h
  obtain rfl := presents_unique hc' hs
  obtain h | ⟨hp, h⟩ := require_next h
  · exact .raised _ h
  cases h
  refine .wrote v _ hv rfl ?_
  rw [exec, execResize, guarded_run ht (holds_written hv _ _ _) (by exact hd) (by exact hl),
    require_pos (by exact hp)]
  simp only [resizeBytes_again, Instr.receiver]

/-- AND, OR or XOR of two live vectors of one length whose storages have the size I-SIZE gives. -/
theorem bitwise_run {op : Byte → Byte → Byte} {a b : Slot} (hs : s.Presents c) (ha : s.Holds sa a)
    (hb : s.Holds sb b) (hd : c.din.length = 0) (hla : a.live = true) (hlb : b.live = true)
    (hlen : a.len = b.len) (hsa : a.st.length = ceil8 a.len) (hsb : b.st.length = ceil8 a.len) :
    bitwise op sa sb s =
      .next (ret (s.withSlot sa { a with st := combined op a.len a.st b.st }) 0 []) := by
  have hzip : zipBytes op (ceil8 a.len) a.st b.st = some (List.zipWith op a.st b.st) := by
    rw [zipBytes_spec op hsa.ge hsb.ge, List.take_of_length_le hsa.le, List.take_of_length_le hsb.le,
      List.drop_of_length_le hsa.le, List.append_nil]
  rw [bitwise, guardedPair_run hs ha hb hd hla hlb, require_pos hlen, hzip, access_some, combined]

theorem bitwise_settles {op : Byte → Byte → Byte} {f : Bool → Bool → Bool} (hi : i.receiver = sa)
    (hexec : ∀ s, exec i s = bitwise op sa sb s)
    (hop : ActsOnBits op f) (habsorb : ∀ x y, f (f x y) y = f x y) (hself : ∀ x, f x x = x)
    (hinv : s.Inv) (h : exec i s = .next t) (hs : s.Presents c) (ht : t.Presents c) :
    Settles i s t := by
  subst hi
  rw [hexec] at h
  obtain h' | h' | ⟨c', a, b, hc', ha, hb, hd, ⟨hla, hlb⟩, h'⟩ := guardedPair_next h
  · exact .raised _ h'
  · exact .raised _ h'
  obtain rfl := presents_unique hc' hs
  obtain h' | ⟨hlen, -⟩ := require_next h'
  · exact .raised _ h'
  obtain ⟨-, hsa, -⟩ := (wf_live_iff hla).1 (Memory.wf_get hinv.2 ha)
  obtain ⟨-, hsb, -⟩ := (wf_live_iff hlb).1 (Memory.wf_get hinv.2 hb)
  rw [← hlen] at hsb
  rw [bitwise_run hs ha hb hd hla hlb hlen hsa hsb] at h
  cases h
  refine .wrote a _ ha rfl ?_
  have hsize := combined_length (op := op) hsa hsb
  have hagain := fun b' => combined_again (b' := b') hop habsorb hself hsa hsb
  rw [hexec]
  by_cases hab : sb = i.receiver
  · subst hab
    rw [bitwise_run ht (holds_written ha _ _ _) (holds_written ha _ _ _) hd hla hla rfl hsize hsize]
    simp only [hagain _ (.inr rfl)]
  · rw [bitwise_run ht (holds_written ha _ _ _) (holds_unwritten hb hab _ _ _) hd hla hlb hlen hsize
      hsb]
    simp only [hagain _ (.inl rfl)]

/-! ## The obligations -/

/-- Settles O40: what a command writes, it writes to its receiver. -/
theorem otherSlotsAreUntouched : Obligations.OtherSlotsAreUntouched :=
  fun _ _ _ _ h hj => (exec_did h).other_slots hj

/-- Settles O41: each check, access and write of a command is about a slot it names, a parameter or the
transaction. -/
theorem unnamedSlotsHaveNoInfluence : Obligations.UnnamedSlotsHaveNoInfluence :=
  fun _ _ s' _ _ hs ht hp hsa hsb h => exec_mirrors hs ht hp hsa hsb s' h

/-- Settles O28, from O41's lemma: the two runs start from the same slot file. -/
theorem readsAndFailuresRepeat : Obligations.ReadsAndFailuresRepeat :=
  fun _ _ _ _ _ => read_or_failed_repeats

/-- Settles O33: position `j` is read from the `j`-th eight bytes, which are those written for it. -/
theorem positionStreamsReadBack : Obligations.PositionStreamsReadBack :=
  fun _ _ => positions_of_stream

/-- Settles O51: each of the six raises an error, and then O28 applies, or leaves a vector that it writes
unchanged a second time. -/
theorem repeatedWritesChangeNothingMore : Obligations.RepeatedWritesChangeNothingMore := by
  intro s t c i sa sb val hi hinv hs h ht
  refine Settles.repeats ?_ hs h ht
  simp only [List.mem_cons, List.not_mem_nil, or_false] at hi
  obtain rfl | rfl | rfl | rfl | rfl | rfl := hi
  · exact checkedWrite_settles (din := fun _ => Command.NoStream) (p := fun c n => PosOk n c.x0)
      (x := fun c st => writeBit val st c.x0.toNat) rfl (fun _ => rfl)
      (fun _ _ _ => writeBit_again) h hs ht
  · exact checkedWrite_settles (din := Command.BatchStream)
      (p := fun c n => ∀ p ∈ c.positions, PosOk n p)
      (x := fun c st => writeBits val st (c.positions.map Int.toNat)) rfl (fun _ => rfl)
      (fun _ _ _ => writeBits_again) h hs ht
  · exact checkedWrite_settles (din := fun _ => Command.NoStream)
      (p := fun c n => RangeOk n c.x0 c.x1)
      (x := fun c st => writeBits val st (rangePositions c.x0.toNat c.x1.toNat)) rfl (fun _ => rfl)
      (fun _ _ _ => writeBits_again) h hs ht
  · exact bitwise_settles rfl (fun _ => rfl) and_actsOnBits (by simp) Bool.and_self hinv h hs ht
  · exact bitwise_settles rfl (fun _ => rfl) or_actsOnBits (by simp) Bool.or_self hinv h hs ht
  · exact execResize_settles h hs ht

end Sys2Proof.Machine
end

section
/-! PROOFS. The encoding (30_encoding.md): a word decodes exactly if no clause of R69 reserves it, and then to the
command it encodes; which transactions are legal (R68); which operands a command ignores (R65). -/

namespace Sys2Proof

/-! ## The fields of a word as numbers (R60) -/

theorem opcField_toNat (w : Word32) : (opcField w).toNat = w.toNat % 2 ^ 8 := by
  simp [opcField]

theorem saField_toNat (w : Word32) : (saField w).toNat = w.toNat / 2 ^ 8 % 2 ^ 8 := by
  simp [saField, Nat.shiftRight_eq_div_pow]

theorem sbField_toNat (w : Word32) : (sbField w).toNat = w.toNat / 2 ^ 16 % 2 ^ 8 := by
  simp [sbField, Nat.shiftRight_eq_div_pow]

theorem valField_eq_true_iff (w : Word32) : valField w = true ↔ w.toNat / 2 ^ 24 % 2 = 1 := by
  simp [valField, BitVec.getLsbD, Nat.testBit_eq_decide_div_mod_eq]

theorem rsvField_toNat (w : Word32) : (rsvField w).toNat = w.toNat / 2 ^ 25 := by
  have := w.isLt
  simp only [rsvField, BitVec.extractLsb'_toNat, Nat.shiftRight_eq_div_pow]
  omega

/-! ## The fields of an encoded command (R72) -/

variable (w : Word32) (i : Instr)

@[simp] theorem opcField_encode : opcField (encode i) = i.opcode := opcField_assemble _ _ _ _

@[simp] theorem saField_encode : saField (encode i) = i.receiver := saField_assemble _ _ _ _

@[simp] theorem sbField_encode : sbField (encode i) = i.operand?.getD 0 := sbField_assemble _ _ _ _

/-! ## What the decoder reads -/

/-- No clause of R69 reserves the word. -/
def Unreserved (w : Word32) : Prop :=
  (1 ≤ (opcField w).toNat ∧ (opcField w).toNat ≤ 0x13) ∧ rsvField w = 0 ∧
    ((opcField w).toNat ∉ [0x09, 0x0A, 0x0B] → sbField w = 0) ∧
    ((opcField w).toNat ∉ [0x03, 0x06, 0x08] → valField w = false)

/-- The right answer of the decoder for the word `w`: the command that `w` encodes if `w` is not
reserved, and no command otherwise. -/
inductive Reads (w : Word32) : Except DecodeError Instr → Prop where
  | command {i : Instr} (hw : encode i = w) (h : Unreserved w) : Reads w (.ok i)
  | nothing {e : DecodeError} (h : ¬ Unreserved w) : Reads w (.error e)

section Formats

variable {w} {k : Byte} (hop : (opcField w).toNat = k.toNat)
include hop

theorem formatSA_reads {mk : SlotIndex → Instr}
    (hk : (1 ≤ k.toNat ∧ k.toNat ≤ 0x13) ∧ k.toNat ∉ [0x09, 0x0A, 0x0B] ∧
      k.toNat ∉ [0x03, 0x06, 0x08])
    (hmk : ∀ sa, encode (mk sa) = assemble k sa 0 false) : Reads w (formatSA mk w) := by
  rw [← hop] at hk
  obtain ⟨hrange, hnosb, hnoval⟩ := hk
  unfold formatSA
  split_ifs with hr hb hv
  · exact .nothing fun ⟨_, hrsv, _, _⟩ => hr hrsv
  · exact .nothing fun ⟨_, _, hsb, _⟩ => hb (hsb hnosb)
  · exact .nothing fun ⟨_, _, _, hval⟩ => absurd (hval hnoval) (by simp [hv])
  · rw [not_not] at hr hb
    rw [Bool.not_eq_true] at hv
    refine .command ?_ ⟨hrange, hr, fun _ => hb, fun _ => hv⟩
    rw [hmk, ← BitVec.eq_of_toNat_eq hop, ← hb, ← hv, assemble_fields hr]

theorem formatSAV_reads {mk : SlotIndex → Bool → Instr}
    (hk : (1 ≤ k.toNat ∧ k.toNat ≤ 0x13) ∧ k.toNat ∉ [0x09, 0x0A, 0x0B] ∧
      k.toNat ∈ [0x03, 0x06, 0x08])
    (hmk : ∀ sa val, encode (mk sa val) = assemble k sa 0 val) : Reads w (formatSAV mk w) := by
  rw [← hop] at hk
  obtain ⟨hrange, hnosb, hhasval⟩ := hk
  unfold formatSAV
  split_ifs with hr hb
  · exact .nothing fun ⟨_, hrsv, _, _⟩ => hr hrsv
  · exact .nothing fun ⟨_, _, hsb, _⟩ => hb (hsb hnosb)
  · rw [not_not] at hr hb
    refine .command ?_ ⟨hrange, hr, fun _ => hb, fun h => absurd hhasval h⟩
    rw [hmk, ← BitVec.eq_of_toNat_eq hop, ← hb, assemble_fields hr]

theorem formatSAB_reads {mk : SlotIndex → SlotIndex → Instr}
    (hk : (1 ≤ k.toNat ∧ k.toNat ≤ 0x13) ∧ k.toNat ∈ [0x09, 0x0A, 0x0B] ∧
      k.toNat ∉ [0x03, 0x06, 0x08])
    (hmk : ∀ sa sb, encode (mk sa sb) = assemble k sa sb false) : Reads w (formatSAB mk w) := by
  rw [← hop] at hk
  obtain ⟨hrange, hhassb, hnoval⟩ := hk
  unfold formatSAB
  split_ifs with hr hv
  · exact .nothing fun ⟨_, hrsv, _, _⟩ => hr hrsv
  · exact .nothing fun ⟨_, _, _, hval⟩ => absurd (hval hnoval) (by simp [hv])
  · rw [not_not] at hr
    rw [Bool.not_eq_true] at hv
    refine .command ?_ ⟨hrange, hr, fun h => absurd hhassb h, fun _ => hv⟩
    rw [hmk, ← BitVec.eq_of_toNat_eq hop, ← hv, assemble_fields hr]

end Formats

/-- One case per arm of the decoder: each of the 19 operation codes, and every other one. -/
theorem decode_reads : Reads w (decode w) := by
  unfold decode
  split
  · next h => exact formatSA_reads (k := 0x01) h (by decide) fun _ => rfl
  · next h => exact formatSA_reads (k := 0x02) h (by decide) fun _ => rfl
  · next h => exact formatSAV_reads (k := 0x03) h (by decide) fun _ _ => rfl
  · next h => exact formatSA_reads (k := 0x04) h (by decide) fun _ => rfl
  · next h => exact formatSA_reads (k := 0x05) h (by decide) fun _ => rfl
  · next h => exact formatSAV_reads (k := 0x06) h (by decide) fun _ _ => rfl
  · next h => exact formatSA_reads (k := 0x07) h (by decide) fun _ => rfl
  · next h => exact formatSAV_reads (k := 0x08) h (by decide) fun _ _ => rfl
  · next h => exact formatSAB_reads (k := 0x09) h (by decide) fun _ _ => rfl
  · next h => exact formatSAB_reads (k := 0x0A) h (by decide) fun _ _ => rfl
  · next h => exact formatSAB_reads (k := 0x0B) h (by decide) fun _ _ => rfl
  · next h => exact formatSA_reads (k := 0x0C) h (by decide) fun _ => rfl
  · next h => exact formatSA_reads (k := 0x0D) h (by decide) fun _ => rfl
  · next h => exact formatSA_reads (k := 0x0E) h (by decide) fun _ => rfl
  · next h => exact formatSA_reads (k := 0x0F) h (by decide) fun _ => rfl
  · next h => exact formatSA_reads (k := 0x10) h (by decide) fun _ => rfl
  · next h => exact formatSA_reads (k := 0x11) h (by decide) fun _ => rfl
  · next h => exact formatSA_reads (k := 0x12) h (by decide) fun _ => rfl
  · next h => exact formatSA_reads (k := 0x13) h (by decide) fun _ => rfl
  · refine .nothing fun h => ?_
    obtain ⟨⟨hlo, hhi⟩, -⟩ := h
    simp only [imp_false] at *
    omega

/-- One case per format: the fields of an assembled word are those it was assembled from. -/
theorem decode_encode : decode (encode i) = .ok i := by
  rw [decode, encode, opcField_assemble]
  cases i with
  | set | setBatch | setRange => exact formatSAV_assemble _ _ _ _
  | bitAnd | bitOr | bitXor => exact formatSAB_assemble _ _ _ _
  | _ => exact formatSA_assemble _ _ _

variable {w i}

theorem encode_of_decode (h : decode w = .ok i) : encode i = w ∧ Unreserved w := by
  have hr := decode_reads w
  rw [h] at hr
  obtain ⟨hw, hn⟩ := hr
  exact ⟨hw, hn⟩

theorem decode_eq_ok_iff : decode w = .ok i ↔ encode i = w := by
  constructor
  · exact fun h => (encode_of_decode h).1
  · rintro rfl
    exact decode_encode i

theorem not_unreserved_of_decode_error {e : DecodeError} (h : decode w = .error e) :
    ¬ Unreserved w := by
  have hr := decode_reads w
  rw [h] at hr
  obtain _ | hn := hr
  exact hn

theorem decode_defined_iff : (∃ i, decode w = .ok i) ↔ Unreserved w := by
  constructor
  · rintro ⟨i, h⟩
    exact (encode_of_decode h).2
  · intro hn
    cases h : decode w with
    | ok i => exact ⟨i, rfl⟩
    | error e => exact absurd hn (not_unreserved_of_decode_error h)

/-! ## The rows of the opcode map (R67) -/

/-- The mask of the row with operation code `k`, by the format of the row. -/
def maskOf (k : Byte) : Word32 :=
  if k.toNat ∈ [0x09, 0x0A, 0x0B] then 0xFF0000FF#32
  else if k.toNat ∈ [0x03, 0x06, 0x08] then 0xFEFF00FF#32
  else 0xFFFF00FF#32

theorem opcodeRows_shape : ∀ r ∈ opcodeRows, r.mask = maskOf (opcField r.pattern) ∧
    r.pattern = 0#24 ++ opcField r.pattern ∧
    1 ≤ (opcField r.pattern).toNat ∧ (opcField r.pattern).toNat ≤ 0x13 := by decide

theorem and_maskOf_iff {k : Byte} (hk : 1 ≤ k.toNat ∧ k.toNat ≤ 0x13) :
    w &&& maskOf k = 0#24 ++ k ↔ Unreserved w ∧ opcField w = k := by
  unfold maskOf Unreserved
  split_ifs with hb hv
  · have hv : k.toNat ∉ [0x03, 0x06, 0x08] := by
      simp only [List.mem_cons, List.not_mem_nil, or_false] at hb ⊢
      omega
    rw [selects_SAB_iff]
    constructor
    · rintro ⟨hr, hval, rfl⟩
      exact ⟨⟨hk, hr, fun h => absurd hb h, fun _ => hval⟩, rfl⟩
    · rintro ⟨⟨-, hr, -, hval⟩, rfl⟩
      exact ⟨hr, hval hv, rfl⟩
  · rw [selects_SAV_iff]
    constructor
    · rintro ⟨hr, hsb, rfl⟩
      exact ⟨⟨hk, hr, fun _ => hsb, fun h => absurd hv h⟩, rfl⟩
    · rintro ⟨⟨-, hr, hsb, -⟩, rfl⟩
      exact ⟨hr, hsb hb, rfl⟩
  · rw [selects_SA_iff]
    constructor
    · rintro ⟨hr, hval, hsb, rfl⟩
      exact ⟨⟨hk, hr, fun _ => hsb, fun _ => hval⟩, rfl⟩
    · rintro ⟨⟨-, hr, hsb, hval⟩, rfl⟩
      exact ⟨hr, hval hv, hsb hb, rfl⟩

theorem row_selects_iff {r : OpcodeRow} (hr : r ∈ opcodeRows) :
    w &&& r.mask = r.pattern ↔ Unreserved w ∧ opcField w = opcField r.pattern := by
  obtain ⟨hmask, hpattern, hk⟩ := opcodeRows_shape r hr
  have h := and_maskOf_iff (w := w) hk
  rwa [← hmask, ← hpattern] at h

theorem opcodeRows_mnemonic_nodup : (opcodeRows.map OpcodeRow.mnemonic).Nodup := by decide

theorem opcodeRows_opcode_nodup : (opcodeRows.map fun r => opcField r.pattern).Nodup := by decide

/-- The rows stand in the order of their operation codes, from 1. -/
theorem row_of_instr (i : Instr) : ∃ r, opcodeRows[i.opcode.toNat - 1]? = some r ∧
    r.mnemonic = i.mnemonic ∧ opcField r.pattern = i.opcode := by
  cases i <;> exact ⟨_, rfl, rfl, rfl⟩

theorem mnemonic_eq_iff_opcode_eq {r : OpcodeRow} (hr : r ∈ opcodeRows) :
    i.mnemonic = r.mnemonic ↔ i.opcode = opcField r.pattern := by
  obtain ⟨q, hq, hname, hopc⟩ := row_of_instr i
  have hq := List.mem_of_getElem? hq
  rw [← hname, ← hopc]
  constructor
  · exact fun h => by rw [List.inj_on_of_nodup_map opcodeRows_mnemonic_nodup hq hr h]
  · exact fun h => by rw [List.inj_on_of_nodup_map opcodeRows_opcode_nodup hq hr h]

/-- A row selects the words that decode to its command (R67). -/
theorem row_selects_iff_decode {r : OpcodeRow} (hr : r ∈ opcodeRows) :
    w &&& r.mask = r.pattern ↔ ∃ i, decode w = .ok i ∧ i.mnemonic = r.mnemonic := by
  have hopc : ∀ i, decode w = .ok i →
      (i.mnemonic = r.mnemonic ↔ opcField w = opcField r.pattern) := by
    intro i h
    rw [mnemonic_eq_iff_opcode_eq hr, ← decode_eq_ok_iff.1 h, opcField_encode]
  rw [row_selects_iff hr, ← decode_defined_iff]
  constructor
  · rintro ⟨⟨i, h⟩, hw⟩
    exact ⟨i, h, (hopc i h).2 hw⟩
  · rintro ⟨i, h, hm⟩
    exact ⟨⟨i, h⟩, (hopc i h).1 hm⟩

theorem some_row_selects_iff_decode :
    (∃ r ∈ opcodeRows, w &&& r.mask = r.pattern) ↔ ∃ i, decode w = .ok i := by
  constructor
  · rintro ⟨r, hr, h⟩
    obtain ⟨i, h, -⟩ := (row_selects_iff_decode hr).1 h
    exact ⟨i, h⟩
  · rintro ⟨i, h⟩
    obtain ⟨r, hr, hname, -⟩ := row_of_instr i
    have hr := List.mem_of_getElem? hr
    exact ⟨r, hr, (row_selects_iff_decode hr).2 ⟨i, h, hname.symm⟩⟩

/-! ## The obligations on words -/

/-- Settles O29, from the two directions `encode_of_decode` and `decode_encode`. -/
theorem decodeIsTheInverseOfEncode : Obligations.DecodeIsTheInverseOfEncode :=
  fun _ _ => decode_eq_ok_iff

/-- Settles O30: a row selects the words that no clause of R69 reserves and that carry its operation
code. -/
theorem decoderAgreesWithTheOpcodeMap : Obligations.DecoderAgreesWithTheOpcodeMap :=
  fun _ _ => row_selects_iff_decode

/-- Settles O32, from O29: the five words are the encodings. -/
theorem exampleWordsDecode : Obligations.ExampleWordsDecode := by
  unfold Obligations.ExampleWordsDecode
  simp only [decode_eq_ok_iff]
  decide

end Sys2Proof

namespace Sys2Proof.Machine

variable {s : State} {c d : Command} {i : Instr} {sa sb : SlotIndex}

/-! ## Reserved words (R69) -/

/-- The clauses of R69 on the bits of the word. -/
theorem not_unreserved_of_clause {w : Word32}
    (h : w.toNat % 256 = 0 ∨ w.toNat % 256 ≥ 0x14 ∨ w.toNat / 2 ^ 25 ≠ 0 ∨
      (w.toNat / 2 ^ 16 % 256 ≠ 0 ∧ w.toNat % 256 ∉ [0x09, 0x0A, 0x0B]) ∨
      (w.toNat / 2 ^ 24 % 2 = 1 ∧ w.toNat % 256 ∉ [0x03, 0x06, 0x08])) : ¬ Unreserved w := by
  rintro ⟨⟨hlo, hhi⟩, hrsv, hsb, hval⟩
  rw [opcField_toNat] at hlo hhi hsb hval
  obtain h | h | h | ⟨h, hopc⟩ | ⟨h, hopc⟩ := h
  · omega
  · omega
  · exact h (by rw [← rsvField_toNat, hrsv]; rfl)
  · have hzero : w.toNat / 2 ^ 16 % 2 ^ 8 = 0 := by rw [← sbField_toNat, hsb hopc]; rfl
    exact h hzero
  · exact absurd ((valField_eq_true_iff w).2 h) (by simp [hval hopc])

/-- A reserved word is answered `IllegalCommand` (R69, R137). -/
theorem step_of_reserved (hc : s.Presents c) (hn : ¬ Unreserved c.cw) :
    step s = .next (raise .illegalCommand s) := by
  cases h : decode c.cw with
  | ok i => exact absurd (encode_of_decode h).2 hn
  | error e => exact step_of_decode_error hc h

/-! ## Which transactions are answered `IllegalCommand` (R68, R137) -/

/-- If the outcome is a next state, its last response is not `IllegalCommand`. -/
def NeverIllegal (r : Result) : Prop :=
  ∀ t x, r = .next t → t.lastResponse? = some x → x.status ≠ .error .illegalCommand

theorem neverIllegal_raise {e : ErrorKind} (he : e ≠ .illegalCommand) :
    NeverIllegal (.next (raise e s)) := by
  rintro _ x ⟨⟩ hx
  rw [lastResponse?_raise] at hx
  cases hx
  simpa [errorResponse] using he

theorem neverIllegal_ret (x : Int) (q : List Byte) : NeverIllegal (.next (ret s x q)) := by
  rintro _ x ⟨⟩ hx
  rw [lastResponse?_ret] at hx
  cases hx
  simp [okResponse]

theorem require_neverIllegal {p : Prop} [Decidable p] {e : ErrorKind} {k : Result}
    (he : e ≠ .illegalCommand) (h : NeverIllegal k) : NeverIllegal (require p e s k) := by
  by_cases hp : p
  · rw [require_pos hp]; exact h
  · rw [require_neg hp]; exact neverIllegal_raise he

theorem access_neverIllegal {α : Type} {x : Option α} {k : α → Result}
    (h : ∀ y, NeverIllegal (k y)) : NeverIllegal (access x k) := by
  cases x with
  | none => rintro _ _ ⟨⟩
  | some y => exact h y

/-- `r` answers `IllegalCommand`, with no slot of `s` changed, if `p` fails, and never if `p` holds. -/
def Screens (p : Prop) (s : State) (r : Result) : Prop :=
  (¬ p → r = .next (raise .illegalCommand s)) ∧ (p → NeverIllegal r)

theorem onCommand_screens {p : Prop} {k : Command → Result} (hc : s.Presents c)
    (h : Screens p s (k c)) : Screens p s (onCommand s k) := by
  rw [onCommand_of_presents hc]; exact h

theorem onSlot_screens {p : Prop} {k : Slot → Result} (h : ∀ v, Screens p s (k v)) :
    Screens (sa.toNat < s.params.nslot ∧ p) s (onSlot s sa k) := by
  cases hv : s.slots[sa.toNat]? with
  | none =>
    rw [onSlot_outside hv]
    have hout := List.getElem?_eq_none_iff.1 hv
    exact ⟨fun _ => rfl, fun hp => absurd hp.1 (not_lt.2 hout)⟩
  | some v =>
    rw [onSlot_of_holds hv]
    obtain ⟨hin, -⟩ := List.getElem?_eq_some_iff.1 hv
    obtain ⟨hbad, hgood⟩ := h v
    exact ⟨fun hp => hbad fun h => hp ⟨hin, h⟩, fun hp => hgood hp.2⟩

theorem require_screens {p : Prop} [Decidable p] {k : Result} (h : NeverIllegal k) :
    Screens p s (require p .illegalCommand s k) :=
  ⟨fun hp => require_neg hp _ _, fun hp => by rw [require_pos hp]; exact h⟩

/-- Step 4 of R68, as a command's opening tests it. -/
def Command.StreamOk (maxBatch : Nat) (c : Command) : StreamUse → Prop
  | .none => c.NoStream
  | .positions => c.BatchStream maxBatch
  | .image => True

theorem accepts_iff_streamOk (p : Params) (c : Command) (u : StreamUse) :
    u.accepts p c.din.length = true ↔ c.StreamOk p.maxBatch u := by
  cases u with
  | none => simp [StreamUse.accepts, Command.StreamOk]
  | positions => simp [StreamUse.accepts, Command.StreamOk, Command.batchSize]
  | image => simp [StreamUse.accepts, Command.StreamOk]

theorem legal_iff (p : Params) (c : Command) (i : Instr) :
    i.legal p c.din.length = true ↔ i.receiver.toNat < p.nslot ∧
      (∀ sb ∈ i.operand?, sb.toNat < p.nslot) ∧ c.StreamOk p.maxBatch i.stream := by
  simp [Instr.legal, Instr.wellFormed, Instr.receiverExists, Instr.operandExists,
    accepts_iff_streamOk, and_assoc, Option.all_eq_true]

/-- A guarded command on one slot, with the stream use of its row. -/
theorem guarded_screens {din : Command → Prop} [∀ c, Decidable (din c)]
    {k : Command → Slot → Result} (hc : s.Presents c) (hi : i.receiver = sa)
    (ho : i.operand? = none) (hd : c.StreamOk s.maxBatch i.stream ↔ din c)
    (h : ∀ v, NeverIllegal (k c v)) :
    Screens (i.legal s.params c.din.length = true) s (guarded din sa s k) := by
  have hlegal : i.legal s.params c.din.length = true ↔ sa.toNat < s.params.nslot ∧ din c := by
    simp [legal_iff, hi, ho, hd]
  rw [hlegal]
  exact onCommand_screens hc <| onSlot_screens fun v => require_screens <|
    require_neverIllegal (by decide) (h v)

/-- CREATE and DESERIALIZE. -/
theorem vacant_screens {din : Command → Prop} [∀ c, Decidable (din c)] {k : Command → Result}
    (hc : s.Presents c) (hi : i.receiver = sa) (ho : i.operand? = none)
    (hd : c.StreamOk s.maxBatch i.stream ↔ din c) (h : NeverIllegal (k c)) :
    Screens (i.legal s.params c.din.length = true) s (vacant din sa s k) := by
  have hlegal : i.legal s.params c.din.length = true ↔ sa.toNat < s.params.nslot ∧ din c := by
    simp [legal_iff, hi, ho, hd]
  rw [hlegal]
  exact onCommand_screens hc <| onSlot_screens fun _ => require_screens <|
    require_neverIllegal (by decide) h

/-- AND, OR and XOR. -/
theorem bitwise_screens {op : Byte → Byte → Byte} (hc : s.Presents c) (hi : i.receiver = sa)
    (ho : i.operand? = some sb) (hs : i.stream = .none) :
    Screens (i.legal s.params c.din.length = true) s (bitwise op sa sb s) := by
  have hlegal : i.legal s.params c.din.length = true ↔
      sa.toNat < s.params.nslot ∧ sb.toNat < s.params.nslot ∧ c.din.length = 0 := by
    simp [legal_iff, hi, ho, hs, Command.StreamOk]
  rw [hlegal]
  exact onCommand_screens hc <| onSlot_screens fun _ => onSlot_screens fun _ => require_screens <|
    require_neverIllegal (by decide) <| require_neverIllegal (by decide) <|
      access_neverIllegal fun _ => neverIllegal_ret _ _

theorem execRelease_screens (hc : s.Presents c) :
    Screens ((Instr.release sa).legal s.params c.din.length = true) s (execRelease sa s) := by
  have hlegal : (Instr.release sa).legal s.params c.din.length = true ↔
      sa.toNat < s.params.nslot ∧ c.NoStream := by
    simp [legal_iff, Instr.receiver, Instr.operand?, Instr.stream, Command.StreamOk]
  rw [hlegal]
  exact onCommand_screens hc <| onSlot_screens fun _ => require_screens <| neverIllegal_ret _ _

/-- A command answers `IllegalCommand` exactly if it fails one of steps 2 to 4 of R68: its opening tests
these steps, and its own checks raise other errors. -/
theorem exec_screens (hc : s.Presents c) (i : Instr) :
    Screens (i.legal s.params c.din.length = true) s (exec i s) := by
  cases i with
  | bitAnd | bitOr | bitXor => exact bitwise_screens hc rfl rfl rfl
  | create =>
    exact vacant_screens hc rfl rfl .rfl <|
      require_neverIllegal (by decide) <| neverIllegal_ret _ _
  | deserialize =>
    exact vacant_screens hc rfl rfl .rfl <| require_neverIllegal (by decide) <|
      require_neverIllegal (by decide) <| require_neverIllegal (by decide) <| neverIllegal_ret _ _
  | release => exact execRelease_screens hc
  | resize =>
    exact guarded_screens hc rfl rfl .rfl fun _ =>
      require_neverIllegal (by decide) <| neverIllegal_ret _ _
  | get | set | getBatch | setBatch | getRange | setRange =>
    exact guarded_screens hc rfl rfl .rfl fun _ =>
      require_neverIllegal (by decide) <| access_neverIllegal fun _ => neverIllegal_ret _ _
  | bitNot | findFirst | countBits =>
    exact guarded_screens hc rfl rfl .rfl fun _ =>
      access_neverIllegal fun _ => neverIllegal_ret _ _
  | countBytes | serialize | length =>
    exact guarded_screens hc rfl rfl .rfl fun _ => neverIllegal_ret _ _

/-! ## The conditions of R68 on the bits of the word -/

/-- AND, OR and XOR are the commands with an operand slot. -/
theorem operand_cases (i : Instr) :
    (i.opcode.toNat ∈ [0x09, 0x0A, 0x0B] ∧ ∃ sb, i.operand? = some sb) ∨
      (i.opcode.toNat ∉ [0x09, 0x0A, 0x0B] ∧ i.operand? = none) := by
  cases i with
  | bitAnd | bitOr | bitXor => exact .inl ⟨by simp [Instr.opcode], _, rfl⟩
  | _ => exact .inr ⟨by simp [Instr.opcode], rfl⟩

/-- GETBATCH and SETBATCH take positions, DESERIALIZE an image, the others no stream (R66). -/
theorem streamOk_iff_opcode (m : Nat) (c : Command) (i : Instr) :
    c.StreamOk m i.stream ↔
      if i.opcode.toNat ∈ [0x05, 0x06] then c.din.length % 8 = 0 ∧ c.din.length / 8 ≤ m
      else if i.opcode.toNat = 0x11 then True else c.din.length = 0 := by
  cases i <;> rfl

theorem legalTransaction_iff (p : Params) (hd : decode c.cw = .ok i) :
    LegalTransaction p c ↔ i.legal p c.din.length = true := by
  have hw := decode_eq_ok_iff.1 hd
  have hsome := some_row_selects_iff_decode.2 ⟨i, hd⟩
  have hoperand : (i.opcode.toNat ∈ [0x09, 0x0A, 0x0B] → (i.operand?.getD 0).toNat < p.nslot) ↔
      ∀ sb ∈ i.operand?, sb.toNat < p.nslot := by
    obtain ⟨hk, sb, ho⟩ | ⟨hk, ho⟩ := operand_cases i
    · simp only [hk, ho, true_imp_iff, Option.getD_some, Option.mem_some_iff, forall_eq']
    · simp only [hk, ho, false_imp_iff, Option.not_mem_none, implies_true]
  rw [legal_iff, streamOk_iff_opcode, ← hoperand]
  unfold LegalTransaction
  rw [and_iff_right hsome, ← hw]
  simp only [← opcField_toNat, ← saField_toNat, ← sbField_toNat, opcField_encode, saField_encode,
    sbField_encode]

theorem step_screens (hc : s.Presents c) : Screens (LegalTransaction s.params c) s (step s) := by
  cases hd : decode c.cw with
  | error e =>
    refine ⟨fun _ => step_of_decode_error hc hd, fun hl => ?_⟩
    obtain ⟨i, h⟩ := some_row_selects_iff_decode.1 hl.1
    cases h.symm.trans hd
  | ok i =>
    rw [legalTransaction_iff s.params hd, step_of_decode_ok hc hd]
    exact exec_screens hc i

/-! ## Scalar operands a command ignores (R65) -/

section Ignored

/-- The state with the transaction `c` at the port and `rest` to come after it. -/
def State.presenting (s : State) (c : Command) (rest : List HostInput) : State :=
  { s with inputs := .command c :: rest }

variable {rest : List HostInput}

/-- Answering consumes the transaction, whichever it was. -/
theorem raise_presenting (e : ErrorKind) :
    raise e (s.presenting d rest) = raise e (s.presenting c rest) := rfl

theorem onCommand_presenting {k k' : Command → Result} (h : k d = k' c) :
    onCommand (s.presenting d rest) k = onCommand (s.presenting c rest) k' := h

theorem onSlot_presenting {k k' : Slot → Result} (h : ∀ v, k v = k' v) :
    onSlot (s.presenting d rest) sa k = onSlot (s.presenting c rest) sa k' := by
  rw [funext h]; rfl

theorem require_presenting {p q : Prop} [Decidable p] [Decidable q] {e : ErrorKind}
    {k k' : Result} (hp : p ↔ q) (h : k = k') :
    require p e (s.presenting d rest) k = require q e (s.presenting c rest) k' := by
  simp only [require, hp, h, raise_presenting (d := d) (c := c)]

theorem guarded_presenting {din : Command → Prop} [∀ c, Decidable (din c)]
    {k k' : Command → Slot → Result} (hd : din d ↔ din c) (h : ∀ v, k d v = k' c v) :
    guarded din sa (s.presenting d rest) k = guarded din sa (s.presenting c rest) k' :=
  onCommand_presenting <| onSlot_presenting fun v =>
    require_presenting hd <| require_presenting .rfl (h v)

theorem vacant_presenting {din : Command → Prop} [∀ c, Decidable (din c)]
    {k k' : Command → Result} (hd : din d ↔ din c) (h : k d = k' c) :
    vacant din sa (s.presenting d rest) k = vacant din sa (s.presenting c rest) k' :=
  onCommand_presenting <| onSlot_presenting fun _ =>
    require_presenting hd <| require_presenting .rfl h

variable (hdin : d.din = c.din)
include hdin

theorem noStream_congr : d.NoStream ↔ c.NoStream := by rw [Command.NoStream, hdin]

theorem batchStream_congr (m : Nat) : d.BatchStream m ↔ c.BatchStream m := by
  simp only [Command.BatchStream, Command.batchSize, hdin]

theorem batchSize_congr : d.batchSize = c.batchSize := by rw [Command.batchSize, hdin]; rfl

theorem positions_congr : d.positions = c.positions := by
  have hpos : d.position = c.position := by
    funext j
    rw [Command.position, hdin]; rfl
  rw [Command.positions, hpos, batchSize_congr hdin]; rfl

theorem bitwise_presenting {op : Byte → Byte → Byte} :
    bitwise op sa sb (s.presenting d rest) = bitwise op sa sb (s.presenting c rest) := by
  unfold bitwise guardedPair
  exact onCommand_presenting <| onSlot_presenting fun _ => onSlot_presenting fun _ =>
    require_presenting (noStream_congr hdin) rfl

/-- Besides the stream, which is the same, a command uses the operands its row of R65 names. -/
theorem exec_presenting (h0 : i.readsA0 = true → d.a0 = c.a0)
    (h1 : i.readsA1 = true → d.a1 = c.a1) :
    exec i (s.presenting d rest) = exec i (s.presenting c rest) := by
  have hx0 : i.readsA0 = true → d.x0 = c.x0 := fun h => by rw [Command.x0, h0 h]; rfl
  have hx1 : i.readsA1 = true → d.x1 = c.x1 := fun h => by rw [Command.x1, h1 h]; rfl
  unfold exec
  cases i with
  | create =>
    exact vacant_presenting (noStream_congr hdin) (by rw [hx0 rfl]; rfl)
  | get | set | resize =>
    exact guarded_presenting (noStream_congr hdin) fun _ => by rw [hx0 rfl]; rfl
  | getRange | setRange =>
    exact guarded_presenting (noStream_congr hdin) fun _ => by rw [hx0 rfl, hx1 rfl]; rfl
  | getBatch =>
    exact guarded_presenting (batchStream_congr hdin _) fun _ => by
      rw [positions_congr hdin, batchSize_congr hdin]; rfl
  | setBatch =>
    exact guarded_presenting (batchStream_congr hdin _) fun _ => by
      rw [positions_congr hdin]; rfl
  | bitAnd | bitOr | bitXor => exact bitwise_presenting hdin
  | bitNot | findFirst | countBits | countBytes | serialize | length =>
    exact guarded_presenting (noStream_congr hdin) fun _ => rfl
  | deserialize => exact vacant_presenting .rfl (by rw [hdin]; rfl)
  | release =>
    exact onCommand_presenting <| onSlot_presenting fun _ =>
      require_presenting (noStream_congr hdin) rfl

end Ignored

/-! ## The obligations on transactions -/

/-- Settles O26: a word that no row selects is rejected by `step`, and the opening of the command of any
other word tests the remaining conditions (`exec_screens`). -/
theorem illegalCommandExactlyWhenNotLegal : Obligations.IllegalCommandExactlyWhenNotLegal :=
  fun _ _ hc => step_screens hc

/-- Settles O31: each clause contradicts one of the conditions that O29's lemma gives of a word that
decodes. -/
theorem reservedEncodingsAreIllegal : Obligations.ReservedEncodingsAreIllegal := by
  intro s c hc hclause
  have hn := not_unreserved_of_clause hclause
  exact ⟨fun i h => hn (encode_of_decode h).2, step_of_reserved hc hn⟩

/-- Settles O34: the two runs have the same outcome, whether they answer or not. -/
theorem ignoredOperandsHaveNoEffect : Obligations.IgnoredOperandsHaveNoEffect := by
  intro s t c d rest i hs _ hdin h0 h1 h
  have hsame : s.presenting c rest = s := by rw [State.presenting, ← hs]
  rw [← hsame] at h
  exact (exec_presenting hdin h0 h1).trans h

end Sys2Proof.Machine
end

section
/-! PROOFS. Packed Store (40_packed_store.md): what CREATE, GET, SET and RESIZE answer on an existing slot, and that
the bits a shrink drops read zero after a later grow. -/

namespace Sys2Proof.Machine

variable {s t : State} {c : Command} {v : Slot} {sa : SlotIndex} {val : Bool}

/-! ## Operands and results -/

theorem noStream_of_nil (h : c.din = []) : c.NoStream := by simp [h]

theorem not_posOk {n : Nat} {p : Int} (h : p < 0 ∨ p ≥ n) : ¬ PosOk n p := by
  rintro ⟨h0, h1⟩
  omega

/-- The size check of CREATE and RESIZE, on the operand as it is presented and on `MAXBYTES` (R131). -/
theorem sizeOk_iff :
    SizeOk s.maxBits c.x0 ↔ 0 ≤ s64 c.a0 ∧ s64 c.a0 ≤ 8 * (s.maxBytes : Int) := by
  simp [State.maxBits, Command.x0]

theorem not_sizeOk (h : s64 c.a0 < 0 ∨ s64 c.a0 > 8 * (s.maxBytes : Int)) :
    ¬ SizeOk s.maxBits c.x0 := by
  rw [sizeOk_iff]
  rintro ⟨h0, h1⟩
  omega

/-- `RESULT` of a command that returns one bit. -/
theorem u64_bit (b : Bool) : u64 b.toNat = if b then 1 else 0 := by
  cases b <;> rfl

/-! ## A guarded command with a check of its own -/

section Checked

variable {din : Command → Prop} [∀ c, Decidable (din c)] {p : Command → Slot → Prop}
  [∀ c v, Decidable (p c v)] {e : ErrorKind} {k : Command → Slot → Result}
  (hc : s.Presents c) (hv : s.Holds sa v) (hd : din c) (hl : v.live = true)
include hc hv hd hl

theorem guarded_check_fails (hp : ¬ p c v) :
    guarded din sa s (fun c v => require (p c v) e s (k c v)) = .next (raise e s) := by
  rw [guarded_run hc hv hd hl, require_neg hp]

theorem guarded_check_passes (hp : p c v) :
    guarded din sa s (fun c v => require (p c v) e s (k c v)) = k c v := by
  rw [guarded_run hc hv hd hl, require_pos hp]

end Checked

/-! ## The four commands past their checks -/

section PastChecks

variable (hc : s.Presents c) (hv : s.Holds sa v) (hd : c.din = [])
include hc hv hd

/-- CREATE on a slot that is not live, with a length the block can hold (R80). -/
theorem execCreate_success (hl : v.live = false) (hs : SizeOk s.maxBits c.x0) :
    execCreate sa s =
      .next (ret (s.withSlot sa (vector c.x0.toNat (zeros (ceil8 c.x0.toNat)))) 0 []) := by
  rw [execCreate, vacant_run hc hv (noStream_of_nil hd) hl, require_pos hs]

/-- CREATE on a slot that is not live, with a length the block cannot hold. -/
theorem execCreate_invalidSize (hl : v.live = false) (hs : ¬ SizeOk s.maxBits c.x0) :
    execCreate sa s = .next (raise .invalidSize s) := by
  rw [execCreate, vacant_run hc hv (noStream_of_nil hd) hl, require_neg hs]

/-- GET of a stored position (R81). -/
theorem execGet_success (hl : v.live = true) (hp : PosOk v.len c.x0)
    (hb : c.x0.toNat / 8 < v.st.length) :
    execGet sa s = .next (ret s (v.bit c.x0.toNat).toNat []) := by
  rw [execGet, guarded_check_passes hc hv (noStream_of_nil hd) hl hp, readBit_spec hb, access_some,
    Slot.bit]

/-- SET, whose write of the storage gives `st` (R82). -/
theorem execSet_success (hl : v.live = true) (hp : PosOk v.len c.x0) {st : List Byte}
    (hst : writeBit val v.st c.x0.toNat = some st) :
    execSet sa val s = .next (ret (s.withSlot sa { v with st := st }) 0 []) := by
  rw [execSet, guarded_check_passes hc hv (noStream_of_nil hd) hl hp, hst, access_some]

/-- RESIZE to a length the block can hold (R83). -/
theorem execResize_success (hl : v.live = true) (hs : SizeOk s.maxBits c.x0) :
    execResize sa s = .next (ret (s.withSlot sa
      { v with len := c.x0.toNat, st := resizeBytes c.x0.toNat v.st }) 0 []) := by
  rw [execResize, guarded_check_passes hc hv (noStream_of_nil hd) hl hs]

end PastChecks

/-! ## RESIZE and the bits of a well-formed vector -/

/-- I-PAD: a set bit of a well-formed live slot lies below `LEN` (R24). -/
theorem below_len_and_bit {mb : Nat} (hw : Slot.wf mb v = true) (hl : v.live = true) (i : Nat) :
    (decide (i < v.len) && storageBit v.st i) = storageBit v.st i := by
  obtain ⟨-, -, hpad⟩ := (wf_live_iff hl).1 hw
  by_cases hi : i < v.len
  · simp [hi]
  · simp [hi, hpad i (by omega)]

/-- A RESIZE that answers success passed its checks: the size is not negative, and the slot it leaves
holds the resized storage. -/
theorem resized_of_ok (h : exec (.resize sa) s = .next t)
    (hok : t.lastResponse? = some (okResponse 0 [])) (hc : s.Presents c) (hv : s.Holds sa v) :
    0 ≤ s64 c.a0 ∧ t.Holds sa
      { v with len := (s64 c.a0).toNat, st := resizeBytes (s64 c.a0).toNat v.st } := by
  have not_raised : ∀ e, t ≠ raise e s := by
    rintro e rfl
    simp [okResponse, errorResponse] at hok
  obtain h | h | ⟨c', v', hc', hv', -, -, h⟩ := guarded_next h
  · exact absurd h (not_raised _)
  · exact absurd h (not_raised _)
  obtain rfl := presents_unique hc' hc
  obtain rfl : v' = v := Option.some.inj (hv'.symm.trans hv)
  obtain h | ⟨hs, h⟩ := require_next h
  · exact absurd h (not_raised _)
  cases h
  exact ⟨(sizeOk_iff.1 hs).1, holds_written hv _ _ _⟩

/-! ## The obligations -/

/-- Settles O3: I-SIZE makes the byte of a position below `LEN` a stored one, and writing there is
`writeBit_spec`. -/
theorem setWritesExactlyOneBit : Obligations.SetWritesExactlyOneBit := by
  intro s c sa val v hi hc hv hd
  refine ⟨fun hl => guarded_dead hc hv (noStream_of_nil hd) hl _,
    fun hl hp => guarded_check_fails hc hv (noStream_of_nil hd) hl (not_posOk hp),
    fun hl h0 h1 => ?_⟩
  have hp : PosOk v.len c.x0 := ⟨h0, h1⟩
  obtain ⟨st, hst, hlen, hbit⟩ :=
    writeBit_spec val (wf_covers (Memory.wf_get hi.2 hv) hl (PosOk.toNat_lt hp))
  exact ⟨st, execSet_success hc hv hd hl hp hst, hlen, hbit⟩

/-- Settles O4: the resized storage keeps the old bits below the new length, and the old bits at or above
the old length are padding, which I-PAD says is zero. -/
theorem resizeKeepsPrefixAndZeroesTheRest : Obligations.ResizeKeepsPrefixAndZeroesTheRest := by
  intro s c sa v hi hc hv hd
  refine ⟨fun hl => guarded_dead hc hv (noStream_of_nil hd) hl _,
    fun hl hs => guarded_check_fails hc hv (noStream_of_nil hd) hl (not_sizeOk hs),
    fun hl h0 h1 => ⟨resizeBytes (s64 c.a0).toNat v.st, ?_, resizeBytes_length _ _, fun i => ?_⟩⟩
  · rw [← hl]
    exact execResize_success hc hv hd hl (sizeOk_iff.2 ⟨h0, h1⟩)
  · rw [resizeBytes_bit, Bool.and_assoc, below_len_and_bit (Memory.wf_get hi.2 hv) hl]

/-- Settles O49: the second RESIZE reads the storage of the first, whose bits at or above `n` are zero. -/
theorem shrinkThenGrowReadsZeros : Obligations.ShrinkThenGrowReadsZeros := by
  intro s t u c d sa v w hi hv hl hc hd ht htok hu huok hw i hiw
  obtain ⟨hn, hmid⟩ := resized_of_ok ht htok hc hv
  obtain ⟨-, hend⟩ := resized_of_ok hu huok hd hmid
  obtain rfl := Option.some.inj (hend.symm.trans hw)
  have hm : i < (s64 d.a0).toNat := hiw
  have hbelow : i < (s64 c.a0).toNat ↔ (i : Int) < s64 c.a0 := by omega
  have hpad := below_len_and_bit (Memory.wf_get hi.2 hv) hl i
  simp only [Slot.bit, resizeBytes_bit, hm, decide_true, Bool.true_and, hbelow]
  rw [Bool.and_right_comm, hpad, Bool.and_comm]

/-- Settles O1: the checks are those of `vacant` and R131, and `zeros` is the storage the rule asks for. -/
theorem createMakesZeroVector : Obligations.CreateMakesZeroVector := by
  intro s c sa v hc hv hd
  exact ⟨fun hl => vacant_busy hc hv (noStream_of_nil hd) hl _,
    fun hl hs => execCreate_invalidSize hc hv hd hl (not_sizeOk hs),
    fun hl h0 h1 => execCreate_success hc hv hd hl (sizeOk_iff.2 ⟨h0, h1⟩)⟩

/-- Settles O2: I-SIZE makes the byte of a position below `LEN` a stored one. -/
theorem getReturnsTheBit : Obligations.GetReturnsTheBit := by
  intro s c sa v hi hc hv hd
  refine ⟨fun hl => guarded_dead hc hv (noStream_of_nil hd) hl _,
    fun hl hp => guarded_check_fails hc hv (noStream_of_nil hd) hl (not_posOk hp),
    fun hl h0 h1 => ?_⟩
  have hp : PosOk v.len c.x0 := ⟨h0, h1⟩
  have hb := wf_covers (Memory.wf_get hi.2 hv) hl (PosOk.toNat_lt hp)
  rw [← u64_bit]
  exact execGet_success hc hv hd hl hp hb

end Sys2Proof.Machine
end

section
/-! PROOFS. Range and Batch (41_range_batch.md): what the commands on many positions, on half-open ranges and on the
whole vector answer on an existing slot, and that a filled vector counts `LEN` set bits. -/

namespace Sys2Proof.Machine

variable {s t : State} {c : Command} {v : Slot} {sa : SlotIndex} {val : Bool} {mb : Nat}

/-! ## Operands -/

theorem not_all_posOk {n : Nat} {ps : List Int} (h : ∃ p ∈ ps, p < 0 ∨ p ≥ n) :
    ¬ ∀ p ∈ ps, PosOk n p := by
  obtain ⟨p, hp, hbad⟩ := h
  exact fun hall => not_posOk hbad (hall p hp)

/-- The naturals a batch of nonnegative positions names. -/
theorem mem_map_toNat {ps : List Int} (h : ∀ p ∈ ps, 0 ≤ p) (i : Nat) :
    i ∈ ps.map Int.toNat ↔ (i : Int) ∈ ps := by
  rw [List.mem_map]
  constructor
  · rintro ⟨p, hp, rfl⟩
    rwa [Int.toNat_of_nonneg (h p hp)]
  · exact fun hi => ⟨i, hi, Int.toNat_natCast i⟩

/-- The naturals a range of signed bounds names. -/
theorem mem_rangePositions_toNat {lo hi : Int} (i : Nat) :
    i ∈ rangePositions lo.toNat hi.toNat ↔ lo ≤ i ∧ i < hi := by
  rw [mem_rangePositions, Int.toNat_le, Int.lt_toNat]

/-! ## Results -/

/-- A batch the block accepts has fewer positions than `RESULT` can hold (R5). -/
theorem Inv_batch_lt (hi : s.Inv) {n : Nat} (hn : n ≤ s.maxBatch) : n < 2 ^ 64 := by
  obtain ⟨⟨-, -, hmax⟩, -⟩ := hi
  have : s.maxBatch ≤ 2 ^ 63 - 1 := hmax
  omega

/-- The length of a live slot, and every count up to it, is returned exactly. -/
theorem u64_toNat_of_le_len (hi : s.Inv) (hv : s.Holds sa v) (hl : v.live = true) {n : Nat}
    (hn : n ≤ v.len) : (u64 n).toNat = n := by
  have := Inv_len_lt hi (Memory.wf_get hi.2 hv) hl
  exact u64_toNat (by omega)

/-- The difference of two bounds in order is the number of positions between them. -/
theorem sub_eq_toNat_sub {lo hi : Int} (h0 : 0 ≤ lo) (h1 : lo ≤ hi) :
    hi - lo = ((hi.toNat - lo.toNat : Nat) : Int) := by
  omega

theorem map_rangePositions_getD (f : Nat → Bool) (lo hi j : Nat) :
    ((rangePositions lo hi).map f).getD j false = (decide (j < hi - lo) && f (lo + j)) := by
  by_cases hj : j < hi - lo <;> simp [rangePositions, hj]

/-- COUNTBITS counts in the sequence of bools of R31. -/
theorem bits_count_true (v : Slot) :
    v.bits.count true = ((Finset.range v.len).filter fun i => v.bit i = true).card := by
  rw [← Nat.count_eq_card_filter_range, Nat.count, Slot.bits, List.count, List.countP_map]
  rfl

/-! ## A command that answers -/

theorem lastResponse?_afterTransaction {m : Memory} {r : Response} :
    (s.afterTransaction m r).lastResponse? = some r := by
  simp [State.lastResponse?]

theorem exec_keeps_Inv {i : Instr} (h : exec i s = .next t) (hi : s.Inv) : t.Inv := by
  obtain ⟨hp, hm⟩ := hi
  obtain ⟨m, r, rfl, -, hwf⟩ := (exec_did h).frame
  exact ⟨(exec_did h).params_eq ▸ hp, hwf hm⟩

/-! ## The eight commands past their checks -/

section PastChecks

variable (hc : s.Presents c) (hv : s.Holds sa v) (hl : v.live = true)
include hc hv hl

/-- GETBATCH of stored positions (R90). -/
theorem execGetBatch_success (hw : Slot.wf mb v = true) (hd : c.BatchStream s.maxBatch)
    (hp : ∀ p ∈ c.positions, PosOk v.len p) :
    execGetBatch sa s =
      .next (ret s c.batchSize (pack (c.positions.map fun p => v.bit p.toNat))) := by
  have hread := readBits_spec fun i hi => wf_covers hw hl (batch_lt_of_posOk hp i hi)
  rw [execGetBatch, guarded_check_passes hc hv hd hl hp, hread, access_some, List.map_map]
  rfl

/-- SETBATCH, whose writes of the storage give `st` (R91). -/
theorem execSetBatch_success (hd : c.BatchStream s.maxBatch)
    (hp : ∀ p ∈ c.positions, PosOk v.len p) {st : List Byte}
    (hst : writeBits val v.st (c.positions.map Int.toNat) = some st) :
    execSetBatch sa val s = .next (ret (s.withSlot sa { v with st := st }) 0 []) := by
  rw [execSetBatch, guarded_check_passes hc hv hd hl hp, hst, access_some]

variable (hd : c.din = [])
include hd

/-- GETRANGE inside the vector (R93). -/
theorem execGetRange_success (hw : Slot.wf mb v = true) (hr : RangeOk v.len c.x0 c.x1) :
    execGetRange sa s = .next (ret s (c.x1 - c.x0)
      (pack ((rangePositions c.x0.toNat c.x1.toNat).map v.bit))) := by
  have hread := readBits_spec fun i hi => wf_covers hw hl (range_lt_of_rangeOk hr i hi)
  rw [execGetRange, guarded_check_passes hc hv (noStream_of_nil hd) hl hr, hread, access_some]
  rfl

/-- SETRANGE, whose writes of the storage give `st` (R92). -/
theorem execSetRange_success (hr : RangeOk v.len c.x0 c.x1) {st : List Byte}
    (hst : writeBits val v.st (rangePositions c.x0.toNat c.x1.toNat) = some st) :
    execSetRange sa val s = .next (ret (s.withSlot sa { v with st := st }) 0 []) := by
  rw [execSetRange, guarded_check_passes hc hv (noStream_of_nil hd) hl hr, hst, access_some]

/-- FINDFIRST on a live slot where `found` is the least set position, if there is one (R94). -/
theorem execFindFirst_success (hw : Slot.wf mb v = true) {found : Option Nat}
    (hfind : (List.range v.len).find? v.bit = found) :
    execFindFirst sa s = .next (ret s (found.elim (-1) Int.ofNat) []) := by
  have hscan := firstSet_spec fun i hi => wf_covers hw hl (scan_lt v.len i hi)
  rw [execFindFirst, guarded_run hc hv (noStream_of_nil hd) hl, hscan, access_some, ← hfind]
  rfl

/-- COUNTBITS on a live slot (R95). -/
theorem execCountBits_success (hw : Slot.wf mb v = true) :
    execCountBits sa s = .next (ret s (v.bits.count true) []) := by
  have hread := readBits_spec fun i hi => wf_covers hw hl (scan_lt v.len i hi)
  rw [execCountBits, guarded_run hc hv (noStream_of_nil hd) hl, hread, access_some]
  rfl

/-- COUNTBYTES on a live slot (R96). -/
theorem execCountBytes_success : execCountBytes sa s = .next (ret s (ceil8 v.len) []) := by
  rw [execCountBytes, guarded_run hc hv (noStream_of_nil hd) hl]

/-- LENGTH on a live slot (R97). -/
theorem execLength_success : execLength sa s = .next (ret s v.len []) := by
  rw [execLength, guarded_run hc hv (noStream_of_nil hd) hl]

end PastChecks

/-! ## The obligations -/

/-- Settles O5: I-SIZE makes the bytes of positions below `LEN` stored ones, and `pack` is read back bit by
bit. -/
theorem getBatchReturnsTheBits : Obligations.GetBatchReturnsTheBits := by
  intro s c sa v hi hc hv hd8 hn
  have hd : c.BatchStream s.maxBatch := ⟨hd8, hn⟩
  refine ⟨fun hl => guarded_dead hc hv hd hl _,
    fun hl hp => guarded_check_fails hc hv hd hl (not_all_posOk hp),
    fun hl hp => ⟨_, _, u64_toNat (Inv_batch_lt hi hn), ?_, pack_bit _,
      execGetBatch_success hc hv hl (Memory.wf_get hi.2 hv) hd hp⟩⟩
  rw [pack_length, List.length_map, positions_length]
  rfl

/-- Settles O6: the writes are those of `writeBits_spec` on the naturals the positions are, and the check of
all of them comes before the first write. -/
theorem setBatchWritesAllOrNothing : Obligations.SetBatchWritesAllOrNothing := by
  intro s c sa val v hi hc hv hd8 hn
  have hd : c.BatchStream s.maxBatch := ⟨hd8, hn⟩
  refine ⟨fun hl => guarded_dead hc hv hd hl _,
    fun hl hp => guarded_check_fails hc hv hd hl (not_all_posOk hp), fun hl hp => ?_⟩
  obtain ⟨st, hst, hlen, hbit⟩ := writeBits_spec val fun i hm =>
    wf_covers (Memory.wf_get hi.2 hv) hl (batch_lt_of_posOk hp i hm)
  refine ⟨st, execSetBatch_success hc hv hl hd hp hst, hlen, fun i => ?_⟩
  simp only [hbit, mem_map_toNat fun p hm => (hp p hm).1]

/-- Settles O7: `max ≤ LEN` keeps every write inside the storage, and the positions written are exactly
those of the half-open range. -/
theorem setRangeWritesExactlyTheRange : Obligations.SetRangeWritesExactlyTheRange := by
  intro s c sa val v hi hc hv hd
  refine ⟨fun hl => guarded_dead hc hv (noStream_of_nil hd) hl _,
    fun hl hr => guarded_check_fails hc hv (noStream_of_nil hd) hl hr, fun hl h0 h1 h2 => ?_⟩
  have hr : RangeOk v.len c.x0 c.x1 := ⟨h0, h1, h2⟩
  obtain ⟨st, hst, hlen, hbit⟩ := writeBits_spec val fun i hm =>
    wf_covers (Memory.wf_get hi.2 hv) hl (range_lt_of_rangeOk hr i hm)
  refine ⟨st, execSetRange_success hc hv hl hd hr hst, hlen, fun i => ?_⟩
  simp only [hbit, mem_rangePositions_toNat, Command.x0, Command.x1]

/-- Settles O8: bool `j` of the packed stream is position `min + j`, and the number of bools fits `RESULT`
because `LEN` does. -/
theorem getRangeReturnsTheRange : Obligations.GetRangeReturnsTheRange := by
  intro s c sa v hi hc hv hd
  refine ⟨fun hl => guarded_dead hc hv (noStream_of_nil hd) hl _,
    fun hl hr => guarded_check_fails hc hv (noStream_of_nil hd) hl hr, fun hl h0 h1 h2 => ?_⟩
  have hcount := sub_eq_toNat_sub h0 h1
  have hx : (u64 (s64 c.a1 - s64 c.a0)).toNat = (s64 c.a1).toNat - (s64 c.a0).toNat := by
    rw [hcount]
    exact u64_toNat_of_le_len hi hv hl (by omega)
  refine ⟨_, _, hx ▸ hcount.symm, ?_, fun j => ?_,
    execGetRange_success hc hv hl hd (Memory.wf_get hi.2 hv) ⟨h0, h1, h2⟩⟩
  · rw [pack_length, List.length_map, rangePositions, List.length_range']
    exact congrArg ceil8 hx.symm
  · rw [pack_bit, map_rangePositions_getD]
    exact hx ▸ rfl

/-- Settles O9: the scan is `List.find?` over the positions in order, so it stops at the least set one. -/
theorem findFirstReturnsTheLowestSetBit : Obligations.FindFirstReturnsTheLowestSetBit := by
  intro s c sa v hi hc hv hd
  refine ⟨fun hl => guarded_dead hc hv (noStream_of_nil hd) hl _, fun hl k hk hset hlow => ?_,
    fun hl hnone => ?_⟩
  · have hfind : (List.range v.len).find? v.bit = some k :=
      List.find?_range_eq_some.2 ⟨hset, List.mem_range.2 hk, by simpa using hlow⟩
    exact ⟨_, u64_toNat_of_le_len hi hv hl hk.le,
      execFindFirst_success hc hv hl hd (Memory.wf_get hi.2 hv) hfind⟩
  · have hfind : (List.range v.len).find? v.bit = none :=
      List.find?_range_eq_none.2 (by simpa using hnone)
    rw [← u64_neg_one]
    exact execFindFirst_success hc hv hl hd (Memory.wf_get hi.2 hv) hfind

/-- Settles O10: the bools read are the vector's sequence of `LEN` bools, so their count fits `RESULT`. -/
theorem countBitsReturnsThePopulation : Obligations.CountBitsReturnsThePopulation := by
  intro s c sa v hi hc hv hd
  refine ⟨fun hl => guarded_dead hc hv (noStream_of_nil hd) hl _, fun hl => ?_⟩
  have hle : v.bits.count true ≤ v.len := bits_length v ▸ List.count_le_length
  have hx := u64_toNat_of_le_len hi hv hl hle
  exact ⟨_, hx.trans (bits_count_true v), hx.le.trans hle,
    execCountBits_success hc hv hl hd (Memory.wf_get hi.2 hv)⟩

/-- Settles O50: after the fill every position below `LEN` is set (O7), so the count (O10) is that of all of
them. -/
theorem countAfterFillIsTheLength : Obligations.CountAfterFillIsTheLength := by
  intro s t c d sa v hi hv hl hc hcd h0 h1 ht hd hdd
  obtain ⟨-, -, hfill⟩ := setRangeWritesExactlyTheRange s c sa true v hi hc hv hcd
  obtain ⟨st, hans, -, hbit⟩ := hfill hl h0.ge (by omega) h1.le
  obtain rfl := Host.Outcome.next.inj (hans.symm.trans ht)
  have hti : State.Inv (s.afterTransaction _ _) := exec_keeps_Inv ht hi
  obtain ⟨-, hcount⟩ :=
    countBitsReturnsThePopulation _ d sa { v with st := st } hti hd (holds_written hv _ 0 []) hdd
  obtain ⟨x, hx, -, hrun⟩ := hcount hl
  have hall : ∀ i ∈ Finset.range v.len, Slot.bit { v with st := st } i = true := by
    intro i hm
    have hlt := Finset.mem_range.1 hm
    rw [Slot.bit, hbit, if_pos (by omega)]
  refine ⟨_, x, hrun, ?_, lastResponse?_afterTransaction⟩
  rw [hx, Finset.filter_true_of_mem hall, Finset.card_range]

/-- Settles O11: I-SIZE says that `ceil8(LEN)` is the number of storage bytes. -/
theorem countBytesReturnsTheStorageSize : Obligations.CountBytesReturnsTheStorageSize := by
  intro s c sa v hi hc hv hd
  refine ⟨fun hl => guarded_dead hc hv (noStream_of_nil hd) hl _, fun hl => ?_⟩
  obtain ⟨-, hsize, -⟩ := (wf_live_iff hl).1 (Memory.wf_get hi.2 hv)
  have hx := u64_toNat_of_le_len hi hv hl (n := ceil8 v.len) (by unfold ceil8; omega)
  exact ⟨_, hx, hx.trans hsize.symm, execCountBytes_success hc hv hl hd⟩

/-- Settles O12: `LEN` of a well-formed slot fits `RESULT`. -/
theorem lengthReturnsTheBitCount : Obligations.LengthReturnsTheBitCount := by
  intro s c sa v hi hc hv hd
  exact ⟨fun hl => guarded_dead hc hv (noStream_of_nil hd) hl _,
    fun hl => ⟨_, u64_toNat_of_le_len hi hv hl le_rfl, execLength_success hc hv hl hd⟩⟩

end Sys2Proof.Machine
end

section
/-! PROOFS. Bitwise Algebra (42_bitwise_algebra.md): which errors AND, OR, XOR and NOT raise, the bits they leave in
the receiver, that the first three commute, and that NOT and XOR undo themselves. -/

namespace Sys2Proof.Machine

variable {s t : State} {c d : Command} {a b v : Slot} {sa sb : SlotIndex}
  {op : Byte → Byte → Byte}

/-! ## The checks of AND, OR and XOR (R68, R105) -/

theorem guardedPair_outside (hc : s.Presents c)
    (h : s.slots[sa.toNat]? = none ∨ s.slots[sb.toNat]? = none) (k : Slot → Slot → Result) :
    guardedPair sa sb s k = .next (raise .illegalCommand s) := by
  rw [guardedPair, onCommand_of_presents hc]
  cases ha : s.slots[sa.toNat]? with
  | none => exact onSlot_outside ha _
  | some a =>
    rw [onSlot_of_holds ha]
    exact onSlot_outside (h.resolve_left (by simp [ha])) _

theorem guardedPair_stream (hc : s.Presents c) (ha : s.Holds sa a) (hb : s.Holds sb b)
    (hd : c.din.length ≠ 0) (k : Slot → Slot → Result) :
    guardedPair sa sb s k = .next (raise .illegalCommand s) := by
  rw [guardedPair_spec hc ha hb, if_pos hd]

theorem bitwise_sizeMismatch (hc : s.Presents c) (ha : s.Holds sa a) (hb : s.Holds sb b)
    (hd : c.din.length = 0) (hla : a.live = true) (hlb : b.live = true) (hlen : a.len ≠ b.len) :
    bitwise op sa sb s = .next (raise .sizeMismatch s) := by
  rw [bitwise, guardedPair_run hc ha hb hd hla hlb, require_neg hlen]

/-- The slots `sa` and `sb` hold the live vectors `a` and `b` of one length. -/
structure Combinable (s : State) (sa sb : SlotIndex) (a b : Slot) : Prop where
  holdsA : s.Holds sa a
  holdsB : s.Holds sb b
  liveA : a.live = true
  liveB : b.live = true
  len_eq : a.len = b.len

/-- Two slots can be combined again after new storage is written into the first. -/
theorem Combinable.written (h : Combinable s sa sb a b) (hne : sa ≠ sb) (st : List Byte) :
    Combinable (ret (s.withSlot sa { a with st := st }) 0 []) sa sb { a with st := st } b :=
  ⟨holds_written h.holdsA _ 0 [], holds_unwritten h.holdsB hne.symm _ 0 [], h.liveA, h.liveB,
    h.len_eq⟩

theorem Combinable.symm (h : Combinable s sa sb a b) : Combinable s sb sa b a :=
  ⟨h.holdsB, h.holdsA, h.liveB, h.liveA, h.len_eq.symm⟩

/-- A presented AND, OR or XOR fails a check, which is the same one with its slots exchanged, or finds two
slots it can combine. -/
theorem bitwise_fails_or_combinable (hc : s.Presents c) (op : Byte → Byte → Byte)
    (sa sb : SlotIndex) :
    (∃ e, bitwise op sa sb s = .next (raise e s) ∧ bitwise op sb sa s = .next (raise e s)) ∨
      c.din.length = 0 ∧ ∃ a b, Combinable s sa sb a b := by
  by_cases hout : s.slots[sa.toNat]? = none ∨ s.slots[sb.toNat]? = none
  · exact .inl ⟨_, guardedPair_outside hc hout _, guardedPair_outside hc hout.symm _⟩
  obtain ⟨⟨a, ha⟩, ⟨b, hb⟩⟩ : (∃ a, s.Holds sa a) ∧ ∃ b, s.Holds sb b := by
    simpa only [not_or, ← ne_eq, Option.ne_none_iff_exists'] using hout
  by_cases hd : c.din.length ≠ 0
  · exact .inl ⟨_, guardedPair_stream hc ha hb hd _, guardedPair_stream hc hb ha hd _⟩
  rw [not_not] at hd
  by_cases hdead : a.live = false ∨ b.live = false
  · exact .inl ⟨_, guardedPair_dead hc ha hb hd hdead _, guardedPair_dead hc hb ha hd hdead.symm _⟩
  obtain ⟨hla, hlb⟩ : a.live = true ∧ b.live = true := by simpa using hdead
  by_cases hlen : a.len = b.len
  · exact .inr ⟨hd, a, b, ha, hb, hla, hlb, hlen⟩
  · exact .inl ⟨_, bitwise_sizeMismatch hc ha hb hd hla hlb hlen,
      bitwise_sizeMismatch hc hb ha hd hlb hla (Ne.symm hlen)⟩

/-! ## The commands past their checks -/

/-- I-SIZE of both vectors (R23), on their one length. -/
theorem Combinable.sizes (h : Combinable s sa sb a b) (hi : s.Inv) :
    a.st.length = ceil8 a.len ∧ b.st.length = ceil8 a.len := by
  obtain ⟨-, hsa, -⟩ := (wf_live_iff h.liveA).1 (Memory.wf_get hi.2 h.holdsA)
  obtain ⟨-, hsb, -⟩ := (wf_live_iff h.liveB).1 (Memory.wf_get hi.2 h.holdsB)
  exact ⟨hsa, h.len_eq ▸ hsb⟩

/-- AND, OR or XOR of two slots it can combine (R105). -/
theorem Combinable.bitwise_eq (h : Combinable s sa sb a b) (hi : s.Inv) (hc : s.Presents c)
    (hd : c.din.length = 0) :
    bitwise op sa sb s =
      .next (ret (s.withSlot sa { a with st := combined op a.len a.st b.st }) 0 []) := by
  obtain ⟨hsa, hsb⟩ := h.sizes hi
  exact bitwise_run hc h.holdsA h.holdsB hd h.liveA h.liveB h.len_eq hsa hsb

/-- The storage NOT leaves in a receiver of `n` bits (R109; `execNot_run`). -/
def inverted (n : Nat) (st : List Byte) : List Byte := maskTail n (st.map (~~~ ·))

theorem inverted_length (n : Nat) (st : List Byte) : (inverted n st).length = st.length := by
  simp [inverted, maskTail_length]

theorem inverted_bit {n : Nat} {st : List Byte} (h : st.length = ceil8 n) (k : Nat) :
    storageBit (inverted n st) k = (decide (k < n) && !storageBit st k) := by
  rw [inverted, maskTail_bit (by simpa using h), storageBit_map_not]
  by_cases hk : k < n
  · have hc := ceil8_bounds n
    simp [hk, show k < 8 * st.length by omega]
  · simp [hk]

/-- NOT of a live vector whose storage has the size I-SIZE gives. -/
theorem execNot_run (hc : s.Presents c) (hv : s.Holds sa v) (hd : c.NoStream) (hl : v.live = true)
    (hsize : v.st.length = ceil8 v.len) :
    execNot sa s = .next (ret (s.withSlot sa { v with st := inverted v.len v.st }) 0 []) := by
  have hmap : mapBytes (~~~ ·) (ceil8 v.len) v.st = some (v.st.map (~~~ ·)) := by
    rw [mapBytes_spec _ hsize.ge, List.take_of_length_le hsize.le, List.drop_of_length_le hsize.le,
      List.append_nil]
  rw [execNot, guarded_run hc hv hd hl, hmap, access_some, inverted]

/-! ## The three operations -/

theorem xor_actsOnBits : ActsOnBits (· ^^^ ·) xor := fun _ _ _ _ => BitVec.getLsbD_xor

/-- AND, OR and XOR are the common contract at an operation that acts on each bit (R106 to R108). -/
theorem exec_eq_bitwise {i : Instr} {f : Bool → Bool → Bool}
    (h : (i, f) ∈ [(Instr.bitAnd sa sb, and), (Instr.bitOr sa sb, or), (Instr.bitXor sa sb, xor)]) :
    ∃ op, ActsOnBits op f ∧ ∀ s, exec i s = bitwise op sa sb s := by
  simp only [List.mem_cons, Prod.mk.injEq, List.not_mem_nil, or_false] at h
  obtain ⟨rfl, rfl⟩ | ⟨rfl, rfl⟩ | ⟨rfl, rfl⟩ := h
  · exact ⟨_, and_actsOnBits, fun _ => rfl⟩
  · exact ⟨_, or_actsOnBits, fun _ => rfl⟩
  · exact ⟨_, xor_actsOnBits, fun _ => rfl⟩

/-- With the slots exchanged the operation is the same one, and it is commutative. -/
theorem exec_eq_bitwise_swap {i j : Instr}
    (h : (i, j) ∈ [(Instr.bitAnd sa sb, Instr.bitAnd sb sa), (Instr.bitOr sa sb, Instr.bitOr sb sa),
      (Instr.bitXor sa sb, Instr.bitXor sb sa)]) :
    ∃ op : Byte → Byte → Byte, (∀ x y, op x y = op y x) ∧
      ∀ s, exec i s = bitwise op sa sb s ∧ exec j s = bitwise op sb sa s := by
  simp only [List.mem_cons, Prod.mk.injEq, List.not_mem_nil, or_false] at h
  obtain ⟨rfl, rfl⟩ | ⟨rfl, rfl⟩ | ⟨rfl, rfl⟩ := h
  · exact ⟨_, BitVec.and_comm, fun _ => ⟨rfl, rfl⟩⟩
  · exact ⟨_, BitVec.or_comm, fun _ => ⟨rfl, rfl⟩⟩
  · exact ⟨_, BitVec.xor_comm, fun _ => ⟨rfl, rfl⟩⟩

theorem combined_comm (hop : ∀ x y, op x y = op y x) (n : Nat) (a b : List Byte) :
    combined op n a b = combined op n b a := by
  rw [combined, combined, List.zipWith_comm_of_comm hop]

/-! ## NOT and XOR undo themselves -/

/-- NOT restores every bit below `LEN`, and the padding was zero. -/
theorem inverted_inverted {mb : Nat} (hw : Slot.wf mb v = true) (hl : v.live = true) :
    inverted v.len (inverted v.len v.st) = v.st := by
  obtain ⟨-, hsize, -⟩ := (wf_live_iff hl).1 hw
  have hsize' : (inverted v.len v.st).length = ceil8 v.len := (inverted_length _ _).trans hsize
  refine storage_ext (by rw [inverted_length, inverted_length]) fun k => ?_
  rw [inverted_bit hsize', inverted_bit hsize, ← below_len_and_bit hw hl]
  cases decide (k < v.len) <;> simp

/-- XOR with the same operand restores every bit below `LEN`, and the padding was zero. -/
theorem combined_xor_xor {mb : Nat} {q : List Byte} (hw : Slot.wf mb a = true)
    (hl : a.live = true) (hq : q.length = ceil8 a.len) :
    combined (· ^^^ ·) a.len (combined (· ^^^ ·) a.len a.st q) q = a.st := by
  obtain ⟨-, hsize, -⟩ := (wf_live_iff hl).1 hw
  have hsize' := combined_length (op := (· ^^^ ·)) hsize hq
  refine storage_ext (by rw [combined_length hsize' hq, hsize]) fun k => ?_
  rw [combined_bit xor_actsOnBits hsize' hq, combined_bit xor_actsOnBits hsize hq,
    ← below_len_and_bit hw hl]
  cases decide (k < a.len) <;> simp

theorem ne_raise_of_ok {x : Word64} {q : List Byte}
    (h : t.lastResponse? = some (okResponse x q)) (e : ErrorKind) : t ≠ raise e s := by
  rintro rfl
  simp [okResponse, errorResponse] at h

/-- Writing a slot and then what it held before restores the slot file. -/
theorem rewritten_slots (hv : s.Holds sa v) (w : Slot) (x y : Int) (p q : List Byte) :
    (ret ((ret (s.withSlot sa w) x p).withSlot sa v) y q).slots = s.slots := by
  rw [ret_slots, withSlot_slots, ret_slots, withSlot_slots, List.set_set]
  exact withSlot_of_holds hv

/-- The command `i` is answered OK in `t`, and its run there leaves the slot file of `s`. -/
def Undone (i : Instr) (s t : State) : Prop :=
  ∃ u, exec i t = .next u ∧ u.lastResponse? = some (okResponse 0 []) ∧ u.slots = s.slots

theorem undone_of_write {i : Instr} {w : Slot} (hv : s.Holds sa v)
    (ht : t = ret (s.withSlot sa w) 0 [])
    (again : exec i t = .next (ret (t.withSlot sa v) 0 [])) : Undone i s t := by
  subst ht
  exact ⟨_, again, lastResponse?_ret, rewritten_slots hv w 0 0 [] []⟩

theorem bitNot_undone (hi : s.Inv) (h : exec (.bitNot sa) s = .next t)
    (hok : t.lastResponse? = some (okResponse 0 [])) (ht : t.Presents d) (hdd : d.din = []) :
    Undone (.bitNot sa) s t := by
  obtain h' | h' | ⟨c, v, hc, hv, hd, hl, -⟩ := guarded_next h
  · exact absurd h' (ne_raise_of_ok hok _)
  · exact absurd h' (ne_raise_of_ok hok _)
  have hw := Memory.wf_get hi.2 hv
  obtain ⟨-, hsize, -⟩ := (wf_live_iff hl).1 hw
  obtain rfl := Host.Outcome.next.inj (h.symm.trans (execNot_run hc hv hd hl hsize))
  refine undone_of_write hv rfl ?_
  have hagain := execNot_run ht (holds_written hv _ _ _) (noStream_of_nil hdd) hl
    ((inverted_length _ _).trans hsize)
  rw [inverted_inverted hw hl] at hagain
  exact hagain

theorem bitXor_undone (hi : s.Inv) (hne : sa ≠ sb) (h : exec (.bitXor sa sb) s = .next t)
    (hok : t.lastResponse? = some (okResponse 0 [])) (ht : t.Presents d) (hdd : d.din = []) :
    Undone (.bitXor sa sb) s t := by
  obtain ⟨c, hc, -⟩ := onCommand_next h
  obtain ⟨e, hfail, -⟩ | ⟨hd, a, b, hab⟩ := bitwise_fails_or_combinable hc (· ^^^ ·) sa sb
  · exact absurd (Host.Outcome.next.inj (h.symm.trans hfail)) (ne_raise_of_ok hok e)
  obtain rfl := Host.Outcome.next.inj (h.symm.trans (hab.bitwise_eq hi hc hd))
  refine undone_of_write hab.holdsA rfl ?_
  have hagain := (hab.written hne _).bitwise_eq (op := (· ^^^ ·)) (exec_keeps_Inv h hi) ht
    (noStream_of_nil hdd)
  rw [combined_xor_xor (Memory.wf_get hi.2 hab.holdsA) hab.liveA (hab.sizes hi).2] at hagain
  exact hagain

/-! ## The obligations -/

/-- Settles O13: the checks are those of `guardedPair` and R105, and the loop over bytes followed by the mask
combines the bits below `LEN` and clears the rest. -/
theorem binaryAlgebraIsPositionwise : Obligations.BinaryAlgebraIsPositionwise := by
  intro s c sa sb a b i f hf hi hc ha hb hd
  obtain ⟨op, hop, hexec⟩ := exec_eq_bitwise hf
  have hd0 := noStream_of_nil hd
  refine ⟨fun hl => (hexec s).trans (guardedPair_dead hc ha hb hd0 hl _),
    fun hla hlb hlen => (hexec s).trans (bitwise_sizeMismatch hc ha hb hd0 hla hlb hlen),
    fun hla hlb hlen => ?_⟩
  have hab : Combinable s sa sb a b := ⟨ha, hb, hla, hlb, hlen⟩
  obtain ⟨hsa, hsb⟩ := hab.sizes hi
  exact ⟨_, (hexec s).trans (hab.bitwise_eq hi hc hd0), (combined_length hsa hsb).trans hsa.symm,
    combined_bit hop hsa hsb⟩

/-- Settles O14: the byte-wide flip inverts the padding too, and the mask clears it. -/
theorem notInvertsEveryBit : Obligations.NotInvertsEveryBit := by
  intro s c sa v hi hc hv hd
  refine ⟨fun hl => guarded_dead hc hv (noStream_of_nil hd) hl _, fun hl => ?_⟩
  obtain ⟨-, hsize, -⟩ := (wf_live_iff hl).1 (Memory.wf_get hi.2 hv)
  exact ⟨_, execNot_run hc hv (noStream_of_nil hd) hl hsize, inverted_length _ _,
    inverted_bit hsize⟩

/-- Settles O15: the checks do not distinguish the two slots, and the byte operation is commutative. -/
theorem binaryAlgebraCommutes : Obligations.BinaryAlgebraCommutes := by
  intro s t u c sa sb i j hij hi hc ht hu
  obtain ⟨op, hcomm, hexec⟩ := exec_eq_bitwise_swap hij
  rw [(hexec s).1] at ht
  rw [(hexec s).2] at hu
  obtain ⟨e, hfail, hfail'⟩ | ⟨hd, a, b, hab⟩ := bitwise_fails_or_combinable hc op sa sb
  · obtain rfl := Host.Outcome.next.inj (hfail.symm.trans ht)
    obtain rfl := Host.Outcome.next.inj (hfail'.symm.trans hu)
    exact ⟨rfl, fun hok => absurd rfl (ne_raise_of_ok hok e)⟩
  obtain rfl := Host.Outcome.next.inj ((hab.bitwise_eq hi hc hd).symm.trans ht)
  obtain rfl := Host.Outcome.next.inj ((hab.symm.bitwise_eq hi hc hd).symm.trans hu)
  have hreceiver : { a with st := combined op a.len a.st b.st } =
      { b with st := combined op b.len b.st a.st } := by
    rw [hab.liveA, hab.liveB, hab.len_eq, combined_comm hcomm]
  refine ⟨by rw [lastResponse?_ret, lastResponse?_ret], fun _ => ?_⟩
  exact (holds_written hab.holdsA _ 0 []).trans
    ((congrArg some hreceiver).trans (holds_written hab.holdsB _ 0 []).symm)

/-- Settles O16: each bit below `LEN` is inverted twice, or combined twice with the same bit of an operand
that the first run left as it was. -/
theorem involutionsRestoreTheReceiver : Obligations.InvolutionsRestoreTheReceiver := by
  intro s t d sa sb i hform hi h hok ht hd
  obtain rfl | ⟨rfl, hne⟩ := hform
  · exact bitNot_undone hi h hok ht hd
  · exact bitXor_undone hi hne h hok ht hd

end Sys2Proof.Machine
end

section
/-! PROOFS. Serialization (43_serialization.md): the bytes of the image SERIALIZE emits, which streams DESERIALIZE
loads and what it leaves, and that the two undo each other but for set padding bits. -/

namespace Sys2Proof.Machine

variable {s t : State} {c : Command} {v : Slot} {sa sb : SlotIndex} {mb : Nat} {din : List Byte}

/-! ## The bytes and bits of a stream -/

theorem le64_getElem? (x : Nat) {k : Nat} (hk : k < 8) :
    (le64 x)[k]? = some (BitVec.ofNat 8 (x / 2 ^ (8 * k))) := by
  simp [le64, hk, Nat.shiftRight_eq_div_pow]

theorem storageBit_drop (st : List Byte) (m i : Nat) :
    storageBit (st.drop m) i = storageBit st (8 * m + i) := by
  have hbyte : (8 * m + i) / 8 = m + i / 8 := by omega
  have hbit : (8 * m + i) % 8 = i % 8 := by omega
  simp [storageBit, hbyte, hbit]

/-- Masking changes nothing where the bits at or above `n` are zero. -/
theorem maskTail_eq_self {n : Nat} {st : List Byte} (hsize : st.length = ceil8 n)
    (hpad : ∀ i, n ≤ i → storageBit st i = false) : maskTail n st = st := by
  refine storage_ext (maskTail_length n st) fun i => ?_
  rw [maskTail_bit hsize]
  by_cases hi : i < n
  · simp [hi]
  · simp [hi, hpad i (by omega)]

/-! ## The image of a vector (R115) -/

theorem image_lengthByte (v : Slot) {k : Nat} (hk : k < 8) :
    (image v)[k]? = some (BitVec.ofNat 8 (v.len / 2 ^ (8 * k))) := by
  rw [image, List.getElem?_append_left (by simpa using hk), le64_getElem? _ hk]

theorem image_payload (v : Slot) (j : Nat) : (image v)[8 + j]? = v.st[j]? := by
  rw [← List.getElem?_drop, image_drop]

/-- The first eight bytes of an image read back as the length, when it fits in them. -/
theorem imageLength_image (h : v.len < 2 ^ 64) : imageLength (image v) = v.len := by
  rw [imageLength, image_take, unle_le64 h]

/-! ## The vector of an image (R117) -/

/-- The streams DESERIALIZE does not refuse: its three format checks at once (`execDeserialize_eq`). -/
abbrev Loadable (maxBits : Nat) (din : List Byte) : Prop :=
  8 ≤ din.length ∧ imageLength din ≤ maxBits ∧ din.length - 8 = ceil8 (imageLength din)

/-- The slot DESERIALIZE makes of a stream it does not refuse (`execDeserialize_eq`). -/
def loaded (din : List Byte) : Slot :=
  vector (imageLength din) (maskTail (imageLength din) (din.drop 8))

/-- Two checks that raise the same error are one check. -/
theorem require_require {p q : Prop} [Decidable p] [Decidable q] (e : ErrorKind) (k : Result) :
    require p e s (require q e s k) = require (p ∧ q) e s k :=
  (ite_and p q k (.next (raise e s))).symm

theorem execDeserialize_eq (sa : SlotIndex) (s : State) :
    execDeserialize sa s = vacant (fun _ => True) sa s fun c =>
      require (Loadable s.maxBits c.din) .format s <|
      .next (ret (s.withSlot sa (loaded c.din)) 0 []) := by
  simp only [execDeserialize, require_require, loaded]

section Payload

variable (hsize : din.length - 8 = ceil8 (imageLength din))
include hsize

theorem loaded_length : (loaded din).st.length = ceil8 (imageLength din) := by
  rw [loaded, vector, maskTail_length, List.length_drop, hsize]

/-- The payload begins at bit 64 of the stream, and its padding is cleared. -/
theorem loaded_bit (i : Nat) :
    storageBit (loaded din).st i = (decide (i < imageLength din) && storageBit din (64 + i)) := by
  rw [loaded, vector, maskTail_bit (by rw [List.length_drop, hsize]), storageBit_drop]

end Payload

/-! ## The commands past their checks -/

/-- SERIALIZE of a live slot (R116). -/
theorem execSerialize_success (hc : s.Presents c) (hv : s.Holds sa v) (hd : c.din = [])
    (hl : v.live = true) : execSerialize sa s = .next (ret s (image v).length (image v)) := by
  rw [execSerialize, guarded_run hc hv (noStream_of_nil hd) hl]

section OnVacantSlot

variable (hc : s.Presents c) (hv : s.Holds sa v) (hl : v.live = false)
include hc hv hl

/-- DESERIALIZE of a stream that passes the format checks, into a slot that is not live (R117). -/
theorem execDeserialize_success (h : Loadable s.maxBits c.din) :
    execDeserialize sa s = .next (ret (s.withSlot sa (loaded c.din)) 0 []) := by
  rw [execDeserialize_eq, vacant_run hc hv trivial hl, require_pos h]

/-- DESERIALIZE of a stream that fails a format check, on a slot that is not live (R117). -/
theorem execDeserialize_format (h : ¬ Loadable s.maxBits c.din) :
    execDeserialize sa s = .next (raise .format s) := by
  rw [execDeserialize_eq, vacant_run hc hv trivial hl, require_neg h]

end OnVacantSlot

/-! ## The commands when they answer success -/

/-- A SERIALIZE that answers success read a live slot and emitted its image. -/
theorem serialized_of_ok {r : Response} (h : exec (.serialize sa) s = .next t)
    (hr : t.lastResponse? = some r) (hok : r.status = .ok) (hv : s.Holds sa v) :
    t = ret s (image v).length (image v) ∧ r.dout = image v := by
  have not_raised : ∀ e, t ≠ raise e s := by
    rintro e rfl
    obtain rfl := Option.some.inj (lastResponse?_raise.symm.trans hr)
    exact nomatch hok
  obtain h | h | ⟨c, v', -, hv', -, -, h⟩ := guarded_next h
  · exact absurd h (not_raised _)
  · exact absurd h (not_raised _)
  obtain rfl : v' = v := Option.some.inj (hv'.symm.trans hv)
  cases h
  obtain rfl := Option.some.inj (lastResponse?_ret.symm.trans hr)
  exact ⟨rfl, rfl⟩

/-- A DESERIALIZE that answers success passed its format checks and left the vector of its stream. -/
theorem loaded_of_ok (h : exec (.deserialize sa) s = .next t)
    (hok : t.lastResponse? = some (okResponse 0 [])) (hc : s.Presents c) :
    Loadable s.maxBits c.din ∧ t.Holds sa (loaded c.din) := by
  obtain h | h | ⟨c', v, hc', hv, -, -, h⟩ :=
    vacant_next ((execDeserialize_eq sa s).symm.trans h)
  · exact absurd h (ne_raise_of_ok hok _)
  · exact absurd h (ne_raise_of_ok hok _)
  obtain rfl := presents_unique hc' hc
  obtain h | ⟨hload, h⟩ := require_next h
  · exact absurd h (ne_raise_of_ok hok _)
  cases h
  exact ⟨hload, holds_written hv _ _ _⟩

/-! ## The round trips (R118) -/

section OfImage

variable (hw : Slot.wf mb v = true) (hl : v.live = true) (hlen : v.len < 2 ^ 64)
include hw hl hlen

/-- The image of a well-formed vector passes the format checks. -/
theorem loadable_image : Loadable (8 * mb) (image v) := by
  obtain ⟨hfits, hsize, -⟩ := (wf_live_iff hl).1 hw
  rw [Loadable, imageLength_image hlen, image_length, Nat.add_sub_cancel_left]
  exact ⟨Nat.le_add_right 8 _, hfits, hsize⟩

/-- The vector of a well-formed vector's image is that vector: there was no padding to clear. -/
theorem loaded_image : loaded (image v) = v := by
  obtain ⟨-, hsize, hpad⟩ := (wf_live_iff hl).1 hw
  rw [loaded, imageLength_image hlen, image_drop, maskTail_eq_self hsize hpad, vector, ← hl]

end OfImage

section OfStream

variable (h : 8 ≤ din.length)
include h

/-- The image of a loaded vector is the stream it was loaded from, with the padding cleared. -/
theorem image_loaded : image (loaded din) = din.take 8 ++ (loaded din).st := by
  rw [image, show (loaded din).len = imageLength din from rfl, imageLength,
    le64_unle (List.length_take_of_le h)]

variable (hsize : din.length - 8 = ceil8 (imageLength din))
include hsize

theorem image_loaded_length : (image (loaded din)).length = din.length := by
  rw [image_length, loaded_length hsize, ← hsize, Nat.add_sub_of_le h]

theorem image_loaded_bit (i : Nat) :
    storageBit (image (loaded din)) i =
      (storageBit din i && decide (i < 64 + imageLength din)) := by
  rw [image_loaded h, storageBit_append, List.length_take_of_le h]
  split
  · next hlow =>
    rw [storageBit_take]
    simp [hlow, show i < 64 + imageLength din by omega]
  · next hhigh =>
    have hiff : i - 64 < imageLength din ↔ i < 64 + imageLength din := by omega
    rw [loaded_bit hsize, Nat.add_sub_of_le (Nat.not_lt.1 hhigh), Bool.and_comm]
    simp only [hiff]

end OfStream

/-! ## The obligations -/

/-- Settles O17: I-SIZE gives the number of bytes emitted, which `RESULT` can hold because `LEN` is at most
`MAXBITS`, and I-PAD says that the padding is zero. -/
theorem serializeEmitsTheImage : Obligations.SerializeEmitsTheImage := by
  intro s c sa v hi hc hv hd
  refine ⟨fun hl => guarded_dead hc hv (noStream_of_nil hd) hl _, fun hl => ?_⟩
  have hw := Memory.wf_get hi.2 hv
  obtain ⟨-, hsize, hpad⟩ := (wf_live_iff hl).1 hw
  have hbytes : (image v).length = 8 + ceil8 v.len := by rw [image_length, hsize]
  have hresult : (u64 (image v).length).toNat = (image v).length := by
    have hlen := Inv_len_lt hi hw hl
    have hceil := ceil8_bounds v.len
    exact u64_toNat (by omega)
  exact ⟨_, _, hresult.trans hbytes, hresult.symm, fun k hk => image_lengthByte v hk,
    image_payload v, hpad, execSerialize_success hc hv hd hl⟩

/-- Settles O18: the length R117 reads from the first eight bytes is `imageLength`, and the three
causes of a `FormatError` are the ways to fail `Loadable`. -/
theorem deserializeBuildsTheVector : Obligations.DeserializeBuildsTheVector := by
  intro s c sa v n hc hv hn
  obtain rfl : n = imageLength c.din := hn.trans (unle_take_eq_sum c.din 8).symm
  refine ⟨fun hl => vacant_busy hc hv trivial hl _,
    fun hl hbad => execDeserialize_format hc hv hl ?_,
    fun hl h8 hmax hsize => ⟨(loaded c.din).st, execDeserialize_success hc hv hl ⟨h8, hmax, hsize⟩,
      loaded_length hsize, loaded_bit hsize⟩⟩
  rintro ⟨h8, hmax, hsize⟩
  obtain h | h | h := hbad
  · exact absurd h8 (Nat.not_le.2 h)
  · exact absurd hmax (Nat.not_le.2 h)
  · exact h hsize

/-- Settles O19: `loaded` and `image` undo each other on a well-formed vector, and on a stream but for its
padding. -/
theorem imagesRoundTrip : Obligations.ImagesRoundTrip := by
  constructor
  · intro s t d sa sb a b r hi ha hla hb hlb hser hr hok hd hdin
    obtain ⟨rfl, hdout⟩ := serialized_of_ok hser hr hok ha
    have hw := Memory.wf_get hi.2 ha
    have hlen : a.len < 2 ^ 64 := (Inv_len_lt hi hw hla).trans (by norm_num)
    have hne : sa ≠ sb := by
      rintro rfl
      obtain rfl := Option.some.inj (ha.symm.trans hb)
      exact absurd (hla.symm.trans hlb) (by decide)
    rw [hdout] at hdin
    have hrun := execDeserialize_success hd hb hlb (hdin ▸ loadable_image hw hla hlen)
    rw [hdin, loaded_image hw hla hlen] at hrun
    exact ⟨_, hrun, lastResponse?_ret, holds_written hb _ 0 [],
      holds_unwritten ha hne _ 0 []⟩
  · intro s t c d sb _ hc hdes hok hd hdin
    obtain ⟨⟨h8, -, hsize⟩, hv⟩ := loaded_of_ok hdes hok hc
    exact ⟨_, _, execSerialize_success hd hv hdin rfl, lastResponse?_ret, rfl,
      image_loaded_length h8 hsize, image_loaded_bit h8 hsize⟩

end Sys2Proof.Machine
end

section
/-! PROOFS. Lifecycle (44_lifecycle.md): which commands the guard protects and what it answers, what each command
does to `LIVE`, and that RELEASE empties its slot. -/

namespace Sys2Proof.Machine

variable {s t : State} {c : Command} {i : Instr} {v w : Slot} {sa sb : SlotIndex} {j : Nat}

/-! ## The unguarded commands (R126) -/

theorem not_guarded_iff : i.isGuarded = false ↔
    i = .create i.receiver ∨ i = .deserialize i.receiver ∨ i = .release i.receiver := by
  cases i with
  | create | deserialize | release => simp [Instr.isGuarded, Instr.errors, Instr.receiver]
  | get | set | resize | getBatch | setBatch | getRange | setRange | bitAnd | bitOr | bitXor
  | bitNot | findFirst | countBits | countBytes | serialize | length =>
    simp [Instr.isGuarded, Instr.errors]

theorem not_fills_of_guarded (hg : i.isGuarded = true) :
    ¬ (i = .create i.receiver ∨ i = .deserialize i.receiver) :=
  fun hi => nomatch hg.symm.trans (not_guarded_iff.2 (hi.imp_right .inl))

theorem not_release_of_guarded (hg : i.isGuarded = true) : i ≠ .release i.receiver :=
  fun hi => nomatch hg.symm.trans (not_guarded_iff.2 (.inr (.inr hi)))

theorem not_release_of_fills (hi : i = .create i.receiver ∨ i = .deserialize i.receiver) :
    i ≠ .release i.receiver := by
  intro hr
  obtain h | h := hi
  · exact nomatch h.symm.trans hr
  · exact nomatch h.symm.trans hr

/-- A command that raises `DisposedError` is guarded: the error is in its row of R147. -/
theorem guarded_of_disposed (h : exec i s = .next t)
    (ht : t.lastResponse? = some (errorResponse .disposed)) : i.isGuarded = true := by
  cases exec_did h with
  | raised e he hraise =>
    rw [hraise, lastResponse?_raise] at ht
    obtain rfl : e = .disposed := by simpa [errorResponse] using ht
    simpa [Instr.isGuarded] using he
  | returned x q _ hret => simp [hret, okResponse, errorResponse] at ht
  | wrote v w _ _ _ hret => simp [hret, okResponse, errorResponse] at ht

/-! ## The first check of a legal transaction (R126, R134, R138) -/

/-- The receiver, which holds `v`, or the operand slot of the command is not live. -/
def NamesDeadSlot (i : Instr) (s : State) (v : Slot) : Prop :=
  v.live = false ∨ ∃ sb w, i.operand? = some sb ∧ s.Holds sb w ∧ w.live = false

theorem NamesDeadSlot.receiver_dead (h : NamesDeadSlot i s v) (ho : i.operand? = none) :
    v.live = false :=
  h.resolve_right fun ⟨_, _, hsome, _⟩ => nomatch ho.symm.trans hsome

/-- The one operand slot that a command can have, when it exists. -/
theorem NamesDeadSlot.pair_dead (h : NamesDeadSlot i s v) (ho : i.operand? = some sb)
    (hw : s.Holds sb w) : v.live = false ∨ w.live = false := by
  refine h.imp_right fun ⟨sb', w', ho', hw', hl⟩ => ?_
  obtain rfl : sb = sb' := Option.some.inj (ho.symm.trans ho')
  obtain rfl : w = w' := Option.some.inj (hw.symm.trans hw')
  exact hl

/-- AND, OR and XOR. -/
theorem bitwise_disposed {op : Byte → Byte → Byte} (hc : s.Presents c) (hv : s.Holds sa v)
    (ho : i.operand? = some sb) (hsb : sb.toNat < s.params.nslot) (hd : c.din.length = 0)
    (hdead : NamesDeadSlot i s v) : bitwise op sa sb s = .next (raise .disposed s) := by
  obtain ⟨w, hw⟩ : ∃ w, s.Holds sb w := ⟨_, List.getElem?_eq_getElem hsb⟩
  exact guardedPair_dead hc hv hw hd (hdead.pair_dead ho hw) _

/-- The guard is the first check of a guarded command once its transaction is legal. -/
theorem exec_disposed (hc : s.Presents c) (hlegal : i.legal s.params c.din.length = true)
    (hv : s.Holds i.receiver v) (hg : i.isGuarded = true) (hdead : NamesDeadSlot i s v) :
    exec i s = .next (raise .disposed s) := by
  obtain ⟨-, hop, hd⟩ := (legal_iff _ _ _).1 hlegal
  cases i with
  | create | deserialize | release => simp [Instr.isGuarded, Instr.errors] at hg
  | bitAnd | bitOr | bitXor => exact bitwise_disposed hc hv rfl (hop _ rfl) hd hdead
  | get | set | resize | getBatch | setBatch | getRange | setRange | bitNot | findFirst | countBits
  | countBytes | serialize | length => exact guarded_dead hc hv hd (hdead.receiver_dead rfl) _

/-- The destination is the first check of CREATE and DESERIALIZE once their transaction is legal. -/
theorem exec_slotBusy (hc : s.Presents c) (hlegal : i.legal s.params c.din.length = true)
    (hv : s.Holds i.receiver v) (hi : i = .create i.receiver ∨ i = .deserialize i.receiver)
    (hl : v.live = true) : exec i s = .next (raise .slotBusy s) := by
  obtain ⟨-, -, hd⟩ := (legal_iff _ _ _).1 hlegal
  have hfills : (∃ sa, i = .create sa) ∨ ∃ sa, i = .deserialize sa := hi.imp (⟨_, ·⟩) (⟨_, ·⟩)
  obtain ⟨sa, rfl⟩ | ⟨sa, rfl⟩ := hfills
  · exact vacant_busy hc hv hd hl _
  · exact vacant_busy hc hv hd hl _

/-! ## What each command does to `LIVE` of its receiver (R125) -/

/-- How a command that writes its receiver turns `LIVE`, from the first value to the second. -/
inductive TurnsLive (i : Instr) : Bool → Bool → Prop where
  /-- The guarded commands need a live receiver and leave it live. -/
  | keeps (hg : i.isGuarded = true) : TurnsLive i true true
  /-- CREATE and DESERIALIZE need a receiver that is not live. -/
  | sets (hi : i = .create i.receiver ∨ i = .deserialize i.receiver) : TurnsLive i false true
  /-- RELEASE takes any receiver. -/
  | clears (hi : i = .release i.receiver) (was : Bool) : TurnsLive i was false

section Turns

variable {was now : Bool} (h : TurnsLive i was now)
include h

theorem TurnsLive.command_of_change (hne : was ≠ now) :
    (was = false → i = .create i.receiver ∨ i = .deserialize i.receiver) ∧
      (was = true → i = .release i.receiver) := by
  cases h with
  | keeps hg => exact absurd rfl hne
  | sets hi => exact ⟨fun _ => hi, nofun⟩
  | clears hi was => exact ⟨fun hwas => absurd hwas hne, fun _ => hi⟩

theorem TurnsLive.of_fills (hi : i = .create i.receiver ∨ i = .deserialize i.receiver) :
    was = false ∧ now = true := by
  cases h with
  | keeps hg => exact absurd hi (not_fills_of_guarded hg)
  | sets _ => exact ⟨rfl, rfl⟩
  | clears hr was => exact absurd hr (not_release_of_fills hi)

theorem TurnsLive.of_release (hi : i = .release i.receiver) : now = false := by
  cases h with
  | keeps hg => exact absurd hi (not_release_of_guarded hg)
  | sets hf => exact absurd hi (not_release_of_fills hf)
  | clears _ was => rfl

end Turns

/-- What a command that answers did to the slot file, as far as `LIVE` goes: nothing, because it failed or
is a guarded one that only reads, or it wrote its receiver. -/
inductive LiveDid (i : Instr) (s t : State) : Prop where
  | failed (e : ErrorKind) (ht : t = raise e s)
  | read (hg : i.isGuarded = true) (hslots : t.slots = s.slots)
  | wrote (v w : Slot) (hv : s.Holds i.receiver v) (hturn : TurnsLive i v.live w.live)
      (ht : t = ret (s.withSlot i.receiver w) 0 [])

/-- If the outcome is a next state, it is one `LiveDid` allows. -/
def TreatsLive (i : Instr) (s : State) (r : Result) : Prop := ∀ t, r = .next t → LiveDid i s t

theorem treatsLive_write (hv : s.Holds i.receiver v) (hturn : TurnsLive i v.live w.live) :
    TreatsLive i s (.next (ret (s.withSlot i.receiver w) 0 [])) := by
  rintro _ ⟨⟩
  exact .wrote v w hv hturn rfl

theorem require_treatsLive {p : Prop} [Decidable p] {e : ErrorKind} {k : Result}
    (h : TreatsLive i s k) : TreatsLive i s (require p e s k) := by
  intro t ht
  obtain ht | ⟨-, ht⟩ := require_next ht
  · exact .failed e ht
  · exact h t ht

theorem access_treatsLive {α : Type} {x : Option α} {k : α → Result}
    (h : ∀ y, TreatsLive i s (k y)) : TreatsLive i s (access x k) := by
  intro t ht
  obtain ⟨y, -, ht⟩ := access_next ht
  exact h y t ht

theorem guarded_treatsLive {din : Command → Prop} [∀ c, Decidable (din c)]
    {k : Command → Slot → Result}
    (h : ∀ c v, s.Holds sa v → v.live = true → TreatsLive i s (k c v)) :
    TreatsLive i s (guarded din sa s k) := by
  intro t ht
  obtain ht | ht | ⟨c, v, -, hv, -, hl, ht⟩ := guarded_next ht
  · exact .failed _ ht
  · exact .failed _ ht
  · exact h c v hv hl t ht

theorem vacant_treatsLive {din : Command → Prop} [∀ c, Decidable (din c)] {k : Command → Result}
    (h : ∀ c v, s.Holds sa v → v.live = false → TreatsLive i s (k c)) :
    TreatsLive i s (vacant din sa s k) := by
  intro t ht
  obtain ht | ht | ⟨c, v, -, hv, -, hl, ht⟩ := vacant_next ht
  · exact .failed _ ht
  · exact .failed _ ht
  · exact h c v hv hl t ht

/-- AND, OR and XOR. -/
theorem bitwise_treatsLive {op : Byte → Byte → Byte} (hg : i.isGuarded = true) :
    TreatsLive i s (bitwise op i.receiver sb s) := by
  intro t ht
  obtain ht | ht | ⟨_, a, b, -, ha, -, -, ⟨hla, -⟩, ht⟩ := guardedPair_next ht
  · exact .failed _ ht
  · exact .failed _ ht
  · refine require_treatsLive (access_treatsLive fun _ => treatsLive_write ha ?_) t ht
    exact hla ▸ .keeps hg

theorem execRelease_treatsLive : TreatsLive (.release sa) s (execRelease sa s) := by
  intro t ht
  obtain ⟨c, -, ht⟩ := onCommand_next ht
  obtain ht | ⟨v, hv, ht⟩ := onSlot_next ht
  · exact .failed _ ht
  · exact require_treatsLive (treatsLive_write hv (.clears rfl v.live)) t ht

theorem exec_treatsLive (i : Instr) : TreatsLive i s (exec i s) := by
  cases i with
  | create =>
    exact vacant_treatsLive fun _ _ hv hl =>
      require_treatsLive <| treatsLive_write hv <| hl ▸ .sets (.inl rfl)
  | deserialize =>
    exact vacant_treatsLive fun _ _ hv hl =>
      require_treatsLive <| require_treatsLive <| require_treatsLive <|
        treatsLive_write hv <| hl ▸ .sets (.inr rfl)
  | release => exact execRelease_treatsLive
  | set | setBatch | setRange =>
    exact guarded_treatsLive fun _ _ hv hl =>
      require_treatsLive <| access_treatsLive fun _ => treatsLive_write hv <| hl ▸ .keeps rfl
  | resize =>
    exact guarded_treatsLive fun _ _ hv hl =>
      require_treatsLive <| treatsLive_write hv <| hl ▸ .keeps rfl
  | bitNot =>
    exact guarded_treatsLive fun _ _ hv hl =>
      access_treatsLive fun _ => treatsLive_write hv <| hl ▸ .keeps rfl
  | bitAnd | bitOr | bitXor => exact bitwise_treatsLive rfl
  | get | getBatch | getRange | findFirst | countBits | countBytes | serialize | length =>
    exact fun t ht => .read rfl ((exec_did ht).slots_of_isRead rfl)

/-- A slot after `w'` is written over `v'` in slot `sa`: that write, or the slot as it was. -/
theorem slot_after_write {v' w' : Slot} (hv' : s.Holds sa v') (hv : s.slots[j]? = some v)
    (hw : (s.slots.set sa.toNat w')[j]? = some w) :
    j = sa.toNat ∧ v = v' ∧ w = w' ∨ j ≠ sa.toNat ∧ v = w := by
  by_cases hj : j = sa.toNat
  · subst hj
    rw [List.getElem?_set_self', hv'] at hw
    exact .inl ⟨rfl, Option.some.inj (hv.symm.trans hv'), (Option.some.inj hw).symm⟩
  · rw [List.getElem?_set_ne (Ne.symm hj), hv] at hw
    exact .inr ⟨hj, Option.some.inj hw⟩

/-! ## RELEASE (R127) -/

theorem execRelease_success (hc : s.Presents c) (hv : s.Holds sa v) (hd : c.din = []) :
    execRelease sa s = .next (ret (s.withSlot sa Slot.empty) 0 []) := by
  rw [execRelease, onCommand_of_presents hc, onSlot_of_holds hv, require_pos (noStream_of_nil hd)]

/-- A well-formed slot that is not live is the empty slot already. -/
theorem release_dead_slots (hi : s.Inv) (hv : s.Holds sa v) (hl : v.live = false) :
    (s.withSlot sa Slot.empty).slots = s.slots := by
  obtain rfl := (wf_dead_iff hl).1 (Memory.wf_get hi.2 hv)
  exact withSlot_of_holds hv

/-! ## The obligations -/

/-- Settles O20: RELEASE has no check after decoding, and the slot it leaves is the one form a slot
that is not live can have. -/
theorem releaseEmptiesTheSlot : Obligations.ReleaseEmptiesTheSlot :=
  fun _ _ _ _ hi hc hv hd => ⟨execRelease_success hc hv hd, release_dead_slots hi hv⟩

/-- Settles O23: past decoding, the guard or the check of the destination is what a command does first. -/
theorem lifecycleIsCheckedFirst : Obligations.LifecycleIsCheckedFirst := by
  intro s c i v hc hlegal hv
  refine ⟨exec_disposed hc hlegal hv, exec_slotBusy hc hlegal hv, fun t hg h hlast => ?_⟩
  exact absurd (guarded_of_disposed h hlast) (by simp [hg])

/-- Settles O21: the turn of `LIVE` that a written receiver shows tells which command wrote it. -/
theorem liveChangesOnlyByLifecycleCommands : Obligations.LiveChangesOnlyByLifecycleCommands := by
  intro s t i j v w h hv hw
  cases exec_treatsLive i t h with
  | failed e ht =>
    rw [ht, raise_slots, hv] at hw
    obtain rfl := Option.some.inj hw
    exact ⟨fun hne => absurd rfl hne, fun _ hok => absurd ht (ne_raise_of_ok hok e)⟩
  | read hg hslots =>
    rw [hslots, hv] at hw
    obtain rfl := Option.some.inj hw
    exact ⟨fun hne => absurd rfl hne,
      fun _ _ => ⟨fun hi => absurd hi (not_fills_of_guarded hg),
        fun hi => absurd hi (not_release_of_guarded hg)⟩⟩
  | wrote v' w' hv' hturn ht =>
    subst ht
    obtain ⟨hj, rfl, rfl⟩ | ⟨hj, rfl⟩ := slot_after_write hv' hv hw
    · exact ⟨fun hne => ⟨hj, lastResponse?_ret, hturn.command_of_change hne⟩,
        fun _ _ => ⟨hturn.of_fills, hturn.of_release⟩⟩
    · exact ⟨fun hne => absurd rfl hne, fun hreceiver => absurd hreceiver hj⟩

end Sys2Proof.Machine
end

section
/-! PROOFS. Errors (60_exceptions.md): what a transaction that is not answered `OK` leaves, which errors a command
can raise, and for each of them a block of the largest slot file with a transaction that raises it. -/

namespace Sys2Proof.Machine

variable {s t : State} {c : Command} {i j : Instr} {v : Slot} {m : Memory}
  {e : ErrorKind} {r : Response}

/-! ## What a command that answers responds (R135, R147) -/

/-- A command that answers anything but `OK` raised an error, and did nothing else. -/
theorem Did.raised_of_not_ok (h : Did i s t) (hr : t.lastResponse? = some r)
    (hn : r.status ≠ .ok) : ∃ e, t = raise e s := by
  cases h with
  | raised e _ ht => exact ⟨e, ht⟩
  | returned x q _ ht =>
    rw [ht, lastResponse?_ret, Option.some.injEq] at hr
    exact absurd (hr ▸ rfl) hn
  | wrote v w _ _ _ ht =>
    rw [ht, lastResponse?_ret, Option.some.injEq] at hr
    exact absurd (hr ▸ rfl) hn

theorem step_raised_of_not_ok (hc : s.Presents c) (h : step s = .next t)
    (hr : t.lastResponse? = some r) (hn : r.status ≠ .ok) : ∃ e, t = raise e s := by
  cases hd : decode c.cw with
  | error _ =>
    rw [step_of_decode_error hc hd] at h
    cases h
    exact ⟨.illegalCommand, rfl⟩
  | ok i =>
    rw [step_of_decode_ok hc hd] at h
    exact (exec_did h).raised_of_not_ok hr hn

/-- A command that answers gives one response, and one its row of R147 allows. -/
theorem Did.response (h : Did i s t) : ∃ r, t.responses = s.responses ++ [r] ∧
    (r.status = .ok ∨ r.status = .error .illegalCommand ∨ ∃ e ∈ i.errors, r.status = .error e) := by
  cases h with
  | raised e he ht =>
    refine ⟨errorResponse e, by rw [ht, raise_responses], .inr ?_⟩
    obtain rfl | he := he
    · exact .inl rfl
    · exact .inr ⟨e, he, rfl⟩
  | returned x q _ ht => exact ⟨okResponse (u64 x) q, by rw [ht, ret_responses], .inl rfl⟩
  | wrote v w _ _ _ ht =>
    exact ⟨okResponse (u64 0) [], by rw [ht, ret_responses, withSlot_responses], .inl rfl⟩

/-! ## A transaction whose operands its command turns away, if it checks them -/

/-- The transaction of the command `i` whose size, position, lower bound of a range or one position of a
batch is -1, and whose image is too short to hold a length. -/
def offending (i : Instr) : Command :=
  { cw := encode i, a0 := u64 (-1), a1 := 0
    din := if i.stream = .positions then [-1].flatMap fun p => le64 (u64 p).toNat else [] }

theorem offending_x0_neg (i : Instr) : (offending i).x0 < 0 := by
  have hx : (offending i).x0 = -1 := s64_u64 (by decide) (by decide)
  omega

theorem offending_noStream (h : i.stream ≠ .positions) : (offending i).din = [] := if_neg h

theorem offending_batch (h : i.stream = .positions) : (offending i).positions = [-1] :=
  positions_of_stream (by decide) (if_pos h)

theorem not_posOk_offending (i : Instr) (n : Nat) : ¬ PosOk n (offending i).x0 :=
  not_posOk (.inl (offending_x0_neg i))

theorem not_rangeOk_offending (i : Instr) (n : Nat) : ¬ RangeOk n (offending i).x0 (offending i).x1 :=
  fun ⟨hlo, _⟩ => absurd hlo (not_le.2 (offending_x0_neg i))

theorem not_sizeOk_offending (i : Instr) (n : Nat) : ¬ SizeOk n (offending i).x0 :=
  fun ⟨hlo, _⟩ => absurd hlo (not_le.2 (offending_x0_neg i))

theorem not_all_posOk_offending (h : i.stream = .positions) (n : Nat) :
    ¬ ∀ p ∈ (offending i).positions, PosOk n p :=
  not_all_posOk ⟨-1, by simp [offending_batch h], .inl (by decide)⟩

theorem offending_streamOk (i : Instr) : (offending i).StreamOk 1 i.stream := by
  cases h : i.stream with
  | none => exact noStream_of_nil (offending_noStream (by simp [h]))
  | positions =>
    have hlen : (offending i).din.length = 8 := by simp [offending, h]
    exact ⟨by rw [hlen], by rw [Command.batchSize, hlen]⟩
  | image => trivial

/-! ## What a command answers it, once past the lifecycle check (R139) -/

section Offended

variable (hc : s.Presents (offending i)) (hv : s.Holds i.receiver v) (hl : v.live = i.isGuarded)
include hc hv hl

/-- DESERIALIZE (R136). -/
theorem exec_offending_format (h : .format ∈ i.errors) : exec i s = .next (raise .format s) := by
  cases i with
  | deserialize => exact execDeserialize_format hc hv hl fun ⟨hlong, _⟩ => nomatch hlong
  | _ => simp [Instr.errors] at h

variable (hlegal : i.legal s.params (offending i).din.length = true)
include hlegal

/-- CREATE and RESIZE (R131). -/
theorem exec_offending_invalidSize (h : .invalidSize ∈ i.errors) :
    exec i s = .next (raise .invalidSize s) := by
  obtain ⟨-, -, hd⟩ := (legal_iff _ _ _).1 hlegal
  cases i with
  | create => exact execCreate_invalidSize hc hv rfl hl (not_sizeOk_offending _ _)
  | resize => exact guarded_check_fails hc hv hd hl (not_sizeOk_offending _ _)
  | _ => simp [Instr.errors] at h

/-- The accessors of positions and ranges (R132). -/
theorem exec_offending_outOfRange (h : .outOfRange ∈ i.errors) :
    exec i s = .next (raise .outOfRange s) := by
  obtain ⟨-, -, hd⟩ := (legal_iff _ _ _).1 hlegal
  cases i with
  | get | set => exact guarded_check_fails hc hv hd hl (not_posOk_offending _ _)
  | getRange | setRange => exact guarded_check_fails hc hv hd hl (not_rangeOk_offending _ _)
  | getBatch | setBatch => exact guarded_check_fails hc hv hd hl (not_all_posOk_offending rfl _)
  | _ => simp [Instr.errors] at h

end Offended

/-! ## A block that has every slot a command can name -/

/-- The block with the slot file `m`, at most one position in a batch, one byte of capacity, and the
offending transaction of `i` at its port. -/
def facing (m : Memory) (i : Instr) : State :=
  { slots := m, maxBytes := 1, maxBatch := 1, inputs := [.command (offending i)], responses := [] }

/-- The largest slot file of R5, `v` in every slot. -/
abbrev full (v : Slot) : Memory := List.replicate 256 v

theorem full_holds (hs : s.slots = full v) (sa : SlotIndex) : s.Holds sa v := by
  simp [State.Holds, hs, sa.isLt]

theorem full_wf {mb : Nat} (h : Slot.wf mb v = true) : Memory.wf mb (full v) = true := by
  simp [Memory.wf, h]

theorem facing_Inv (hn : m.length = 256) (hm : Memory.wf 1 m = true) (i : Instr) :
    (facing m i).Inv := by
  refine ⟨?_, hm⟩
  simp [Params.Legal, facing, hn]

theorem facing_legal (hn : m.length = 256) (i : Instr) :
    i.legal (facing m i).params (offending i).din.length = true := by
  have hslot (k : SlotIndex) : k.toNat < (facing m i).params.nslot := by
    simpa [facing, hn] using k.isLt
  exact (legal_iff _ _ _).2 ⟨hslot _, fun sb _ => hslot sb, offending_streamOk i⟩

/-- A slot of no bits, live or not. -/
def bitless (live : Bool) : Slot := { live := live, len := 0, st := [] }

theorem wf_bitless {mb : Nat} (live : Bool) : Slot.wf mb (bitless live) = true := by
  cases live with
  | false => exact wf_empty
  | true => exact wf_zeros (n := 0) (Nat.zero_le _)

/-! ## Every error of a row of R147 is raised -/

/-- A command of the operation code of `i` raises `e` on a legal transaction, in a state that meets the
invariant. -/
def CanRaise (i : Instr) (e : ErrorKind) : Prop :=
  ∃ (j : Instr) (s : State) (c : Command),
    j.opcode = i.opcode ∧ s.Inv ∧ s.Presents c ∧ j.legal s.params c.din.length = true ∧ Raises j s e

theorem canRaise_of_facing (hop : j.opcode = i.opcode) (hn : m.length = 256)
    (hm : Memory.wf 1 m = true)
    (h : ∀ s : State, s.slots = m → s.Presents (offending j) →
      j.legal s.params (offending j).din.length = true → exec j s = .next (raise e s)) :
    CanRaise i e :=
  ⟨j, facing m j, offending j, hop, facing_Inv hn hm j, rfl, facing_legal hn j,
    h _ rfl rfl (facing_legal hn j)⟩

/-- When all slots are alike, the command itself raises the error, whichever slots it names. -/
theorem canRaise_of_bitless (live : Bool)
    (h : ∀ s : State, s.Presents (offending i) →
      i.legal s.params (offending i).din.length = true → s.Holds i.receiver (bitless live) →
      exec i s = .next (raise e s)) : CanRaise i e :=
  canRaise_of_facing rfl List.length_replicate (full_wf (wf_bitless live))
    fun s hs hc hlegal => h s hc hlegal (full_holds hs _)

/-- The guarded commands, when no slot is live (R134). -/
theorem canRaise_disposed (h : .disposed ∈ i.errors) : CanRaise i .disposed :=
  canRaise_of_bitless false fun _ hc hlegal hv =>
    exec_disposed hc hlegal hv (decide_eq_true h) (.inl rfl)

/-- CREATE and DESERIALIZE, when every slot is live (R138). -/
theorem canRaise_slotBusy (h : .slotBusy ∈ i.errors) : CanRaise i .slotBusy := by
  have hfills : i = .create i.receiver ∨ i = .deserialize i.receiver := by
    cases i with
    | create => exact .inl rfl
    | deserialize => exact .inr rfl
    | _ => simp [Instr.errors] at h
  exact canRaise_of_bitless true fun _ hc hlegal hv => exec_slotBusy hc hlegal hv hfills rfl

/-- A slot file of live vectors whose first is one bit longer than the others. -/
def unequal : Memory := (full (bitless true)).set 0 (vector 1 [0])

theorem unequal_length : unequal.length = 256 := by simp [unequal]

theorem unequal_wf : Memory.wf 1 unequal = true :=
  Memory.wf_set (full_wf (wf_bitless true)) (wf_zeros (n := 1) (by decide)) 0

/-- AND, OR and XOR of slots 0 and 1 (R133). -/
theorem bitwise_unequal {op : Byte → Byte → Byte} (hc : s.Presents c) (hd : c.din = [])
    (hm : s.slots = unequal) : bitwise op 0 1 s = .next (raise .sizeMismatch s) := by
  have h0 : s.Holds 0 (vector 1 [0]) := by simp [State.Holds, hm, unequal]
  have h1 : s.Holds 1 (bitless true) := by simp [State.Holds, hm, unequal]
  exact bitwise_sizeMismatch hc h0 h1 (noStream_of_nil hd) rfl rfl (by decide)

theorem canRaise_of_unequal {op : Byte → Byte → Byte} (hop : j.opcode = i.opcode)
    (hd : (offending j).din = []) (hexec : ∀ s, exec j s = bitwise op 0 1 s) :
    CanRaise i .sizeMismatch :=
  canRaise_of_facing hop unequal_length unequal_wf fun s hs hc _ =>
    (hexec s).trans (bitwise_unequal hc hd hs)

/-- A vector never differs in length from itself, so the slots are not those `i` names. -/
theorem canRaise_sizeMismatch (h : .sizeMismatch ∈ i.errors) : CanRaise i .sizeMismatch := by
  cases i with
  | bitAnd => exact canRaise_of_unequal (j := .bitAnd 0 1) rfl rfl fun _ => rfl
  | bitOr => exact canRaise_of_unequal (j := .bitOr 0 1) rfl rfl fun _ => rfl
  | bitXor => exact canRaise_of_unequal (j := .bitXor 0 1) rfl rfl fun _ => rfl
  | _ => simp [Instr.errors] at h

/-- `IllegalCommand` is in no row of the table. -/
theorem illegalCommand_not_mem_errors (i : Instr) : .illegalCommand ∉ i.errors := by
  cases i <;> simp [Instr.errors]

theorem canRaise_of_mem_errors (h : e ∈ i.errors) : CanRaise i e := by
  cases e with
  | invalidSize =>
    exact canRaise_of_bitless i.isGuarded fun _ hc hlegal hv =>
      exec_offending_invalidSize hc hv rfl hlegal h
  | outOfRange =>
    exact canRaise_of_bitless i.isGuarded fun _ hc hlegal hv =>
      exec_offending_outOfRange hc hv rfl hlegal h
  | sizeMismatch => exact canRaise_sizeMismatch h
  | disposed => exact canRaise_disposed h
  | format => exact canRaise_of_bitless i.isGuarded fun _ hc _ hv => exec_offending_format hc hv rfl h
  | illegalCommand => exact absurd h (illegalCommand_not_mem_errors i)
  | slotBusy => exact canRaise_slotBusy h

/-! ## The obligations -/

/-- Settles O24: what is not answered `OK` is the one operation `raise`, of the decoder or of the command. -/
theorem errorsChangeNothing : Obligations.ErrorsChangeNothing := by
  intro s t c r hc h hr hn
  obtain ⟨e, rfl⟩ := step_raised_of_not_ok hc h hr hn
  obtain rfl : errorResponse e = r := Option.some.inj (lastResponse?_raise.symm.trans hr)
  exact ⟨rfl, rfl, rfl⟩

/-- Settles O25, with one block and transaction for each error: every slot is live or none is, and for
`SizeMismatchError` two live slots differ in length. -/
theorem errorsAreThoseOfTheTable : Obligations.ErrorsAreThoseOfTheTable :=
  ⟨fun _ _ _ h => (exec_did h).response, fun _ _ h => canRaise_of_mem_errors h⟩

theorem status_code_le (a : Status) : a.code.toNat ≤ 7 := by
  cases a with
  | ok => decide
  | error e => cases e <;> decide

/-- Settles O27: an error's code is never 0, so it is told apart from `OK` too. -/
theorem statusCodesAreTheTable : Obligations.StatusCodesAreTheTable :=
  ⟨rfl, fun _ _ => status_code_injective, status_code_le⟩

/-- Settles O46: with no input the work of the step is the wait. -/
theorem idleHoldsTheState : Obligations.IdleHoldsTheState := by
  intro s h
  simp [step, nextWork, h, idle]

end Sys2Proof.Machine
end

section
/-! PROOFS. Reset and hazards (70_reset_and_hazards.md): the reset input leaves the slot file of a block just built
with the same parameters. -/

namespace Sys2Proof.Machine

/-- Emptying every slot gives the slot file a block with as many slots starts with (R32, R155). -/
theorem applyReset_slots_eq_init (s : State) :
    (applyReset s).slots = (State.init s.params).slots := by
  calc (applyReset s).slots
      = s.slots.map fun _ => Slot.empty := applyReset_slots s
    _ = List.replicate s.slots.length Slot.empty := List.map_const'
    _ = (State.init s.params).slots := rfl

/-! ## The obligations -/

/-- Settles O44: with a reset at the head of the inputs the step is `applyReset`, whichever command it
abandons. -/
theorem resetInputEmptiesEverySlot : Obligations.ResetInputEmptiesEverySlot := by
  intro s abandoned rest h
  have hinputs : (applyReset s).inputs = rest := by simp [h]
  exact ⟨applyReset s, step_of_reset h, applyReset_slots_eq_init s, applyReset_params s, hinputs,
    applyReset_responses s⟩

end Sys2Proof.Machine
end
